-- ==== Sys2Proof/Word.lean ====
section
/-! DEFINITION. The word types of PEPPY-CODEC-128 (spec/00_scope.md R6 to R9, spec/30_encoding.md R71, R73): every
value of the block is an unsigned bit pattern or a natural number. -/

namespace Sys2Proof

/-- One word of the word sequence, 8 bits (R7, R23). -/
abbrev Byte := BitVec 8

/-- The data of one host transaction, 32 bits (R6, R71). -/
abbrev Word := BitVec 32

/-- The value of the index register N, 128 bits (R7, R22). -/
abbrev Index := BitVec 128

/-- A byte offset in the 4096-byte register window, 12 bits (R39, R50). -/
abbrev Offset := BitVec 12

/-- A host transaction request, 47 bits (R71). -/
abbrev TxnWord := BitVec 47

/-- A command word, the value a host writes to CMD, 32 bits (R73). -/
abbrev CmdWord := BitVec 32

end Sys2Proof
end

