-- ==== Sys2Proof/Syntax.lean ====
section
/-! DEFINITION. The syntax: one constructor of `Instr` per row of spec/opcode_table.json (two host transactions,
nine commands), and the events a host program is made of (spec/30_encoding.md R70 to R74). -/

namespace Sys2Proof

/-- The SIZE field of a host transaction (R71): 00 byte, 01 halfword, 10 word, 11 reserved. -/
inductive Size where
  | byte
  | half
  | word
  | reserved
  deriving DecidableEq, Repr

/-- The nine commands of the opcode map (R74). -/
inductive Command where
  | nop
  | pack
  | unpack
  | divstep
  | convert
  | incn
  | movvn
  | clrerr
  | srst
  deriving DecidableEq, Repr

/-- The instructions, one constructor per row of spec/opcode_table.json. RD and WR are host transactions with their
size and byte offset (R90, R91); a read's WDATA is "don't care" (R71) and is not kept. A command is what a legal host
write of its command word to CMD runs (R70, R73). -/
inductive Instr where
  | rd (size : Size) (addr : Offset)
  | wr (size : Size) (addr : Offset) (data : Word)
  | nop
  | pack
  | unpack
  | divstep
  | convert
  | incn
  | movvn
  | clrerr
  | srst
  deriving DecidableEq, Repr

/-- The instruction (opcode table row) of a command. -/
def Command.toInstr : Command → Instr
  | .nop => .nop
  | .pack => .pack
  | .unpack => .unpack
  | .divstep => .divstep
  | .convert => .convert
  | .incn => .incn
  | .movvn => .movvn
  | .clrerr => .clrerr
  | .srst => .srst

/-- What the outside world can do to the block, one event at a time: the single port's serialised transactions
(R60, R65, R70) and the hardware reset input, asserted and released between transactions (R180). -/
inductive HostEvent where
  /-- one host transaction request, as its 47 bits (R71) -/
  | txn (w : TxnWord)
  /-- the platform asserts the hardware reset input (R180) -/
  | assertReset
  /-- the platform releases the hardware reset input (R180) -/
  | releaseReset
  deriving DecidableEq, Repr

end Sys2Proof
end

