-- ==== Sys2Proof/WellFormed.lean ====
section
/-! DEFINITION. When an instruction is well formed: the legality of a host transaction (spec/30_encoding.md R72).
An ill-formed transaction still has its meaning, BusError (spec/20_memory.md R54 to R56). -/

namespace Sys2Proof

/-- R55: the offset is 4-byte aligned, `addr[1:0] = 00`. -/
def aligned (a : Offset) : Bool := a.extractLsb' 0 2 == 0

/-- R72: a transaction is legal only when `SIZE = 10` and `ADDR[1:0] = 00`. -/
def legalAccess (size : Size) (a : Offset) : Bool := (size == .word) && aligned a

/-- A transaction is well formed when it is legal (R72); a command has no operand field (R73), so it always is. -/
def WellFormed : Instr → Bool
  | .rd size a => legalAccess size a
  | .wr size a _ => legalAccess size a
  | .nop => true
  | .pack => true
  | .unpack => true
  | .divstep => true
  | .convert => true
  | .incn => true
  | .movvn => true
  | .clrerr => true
  | .srst => true

end Sys2Proof
end

