-- ==== Sys2Proof/Decode.lean ====
section
/-! DEFINITION. The decoder and the encoder of the two things the spec encodes: the 47-bit host transaction
(spec/30_encoding.md R71, R72) and the 32-bit command word (R73, R74, R76). -/

namespace Sys2Proof

/-- Why a word names no instruction: the refusals of the decoder, by name. -/
inductive DecodeError where
  /-- `RSV != 0` (R77): the command word is Illegal. -/
  | reservedBits
  /-- `RSV = 0` and OP in 0x08 to 0xFE (R77): the command word is Illegal. -/
  | unknownOp
  /-- the word has bits beyond its format's width (R71 has 47, R73 has 32). -/
  | beyondFormat
  /-- no format of the spec has that many bits (R78). -/
  | noSuchFormat
  deriving DecidableEq, Repr

/-- OP, bits 7:0 of a command word (R73). -/
def opField (c : CmdWord) : BitVec 8 := c.extractLsb' 0 8

/-- RSV, bits 31:8 of a command word (R73). -/
def rsvField (c : CmdWord) : BitVec 24 := c.extractLsb' 8 24

/-- The opcode map of R74, read from OP to the command. -/
def commandOfOp (op : BitVec 8) : Option Command :=
  if op = 0x00#8 then some .nop
  else if op = 0x01#8 then some .pack
  else if op = 0x02#8 then some .unpack
  else if op = 0x03#8 then some .divstep
  else if op = 0x04#8 then some .convert
  else if op = 0x05#8 then some .incn
  else if op = 0x06#8 then some .movvn
  else if op = 0x07#8 then some .clrerr
  else if op = 0xFF#8 then some .srst
  else none

/-- Decoding a command word, total on all 2^32 values (R76). The two error names are the two ways of R77 to be
Illegal; Dispatch treats them alike. -/
def decodeCommand (c : CmdWord) : Except DecodeError Command :=
  if rsvField c = 0 then
    match commandOfOp (opField c) with
    | some k => .ok k
    | none => .error .unknownOp
  else .error .reservedBits

/-- WRITE, bit 46 of a transaction (R71). -/
def writeField (t : TxnWord) : BitVec 1 := t.extractLsb' 46 1

/-- SIZE, bits 45:44 of a transaction (R71). -/
def sizeField (t : TxnWord) : BitVec 2 := t.extractLsb' 44 2

/-- ADDR, bits 43:32 of a transaction (R71). -/
def addrField (t : TxnWord) : Offset := t.extractLsb' 32 12

/-- WDATA, bits 31:0 of a transaction (R71). -/
def wdataField (t : TxnWord) : Word := t.extractLsb' 0 32

/-- The meaning of the SIZE field (R71). -/
def sizeOfField (f : BitVec 2) : Size :=
  if f = 0 then .byte else if f = 1 then .half else if f = 2 then .word else .reserved

/-- Decoding a host transaction: RD for WRITE = 0 (R90), WR for WRITE = 1 (R91). Every one of the 2^47 requests is a
read or a write; an illegal SIZE or ADDR gives an ill-formed one, which takes BusError (R72, log entry 9). -/
def decodeTxn (t : TxnWord) : Instr :=
  if writeField t = 0 then .rd (sizeOfField (sizeField t)) (addrField t)
  else .wr (sizeOfField (sizeField t)) (addrField t) (wdataField t)

/-- Decoding a word of a format of `nbits` bits, rejecting by name: 32 is a command word (R73); 47, or 48 as whole
bytes with bit 47 zero, is a host transaction (R71, spec/95_test_vectors.md). -/
def decodeWord (nbits w : Nat) : Except DecodeError Instr :=
  if nbits = 32 then
    if w < 2 ^ 32 then
      match decodeCommand (BitVec.ofNat 32 w) with
      | .ok k => .ok k.toInstr
      | .error e => .error e
    else .error .beyondFormat
  else if nbits = 47 ∨ nbits = 48 then
    if w < 2 ^ 47 then .ok (decodeTxn (BitVec.ofNat 47 w)) else .error .beyondFormat
  else .error .noSuchFormat

/-- The instruction the decoder reads from a word numbered as spec/opcode_table.json numbers it (bit 0 least
significant). -/
def decodeTableWord (nbits w : Nat) : Option Instr :=
  match decodeWord nbits w with
  | .ok i => some i
  | .error _ => none

/-- The SIZE field of a size (R71). -/
def sizeBits : Size → BitVec 2
  | .byte => 0
  | .half => 1
  | .word => 2
  | .reserved => 3

/-- OP of a command (R74). -/
def opOf : Command → BitVec 8
  | .nop => 0x00
  | .pack => 0x01
  | .unpack => 0x02
  | .divstep => 0x03
  | .convert => 0x04
  | .incn => 0x05
  | .movvn => 0x06
  | .clrerr => 0x07
  | .srst => 0xFF

/-- The command word of a command: RSV zero, then OP (R73, R74). -/
def encodeCommand (k : Command) : CmdWord := 0#24 ++ opOf k

/-- The transaction of the four fields WRITE, SIZE, ADDR, WDATA (R71). -/
def txnWord (write : BitVec 1) (size : Size) (a : Offset) (data : Word) : TxnWord :=
  write ++ sizeBits size ++ a ++ data

/-- A legal read of offset `a` (WDATA, which a read ignores, written as zeros; log entry 10). -/
def encodeRd (size : Size) (a : Offset) : TxnWord := txnWord 0 size a 0

/-- A write of `data` to offset `a`. -/
def encodeWr (size : Size) (a : Offset) (data : Word) : TxnWord := txnWord 1 size a data

/-- The offset of CMD (R39). -/
def cmdOffset : Offset := 0x008

/-- The transaction by which a host issues the command word `c`: a word-sized WR of `c` to CMD (R70, R80). -/
def cmdTxn (c : CmdWord) : TxnWord := encodeWr .word cmdOffset c

/-- How many bits, in whole bytes, the opcode table gives the instruction's row. -/
def encodeBits : Instr → Nat
  | .rd _ _ => 48
  | .wr _ _ _ => 48
  | .nop => 32
  | .pack => 32
  | .unpack => 32
  | .divstep => 32
  | .convert => 32
  | .incn => 32
  | .movvn => 32
  | .clrerr => 32
  | .srst => 32

/-- The word of an instruction, numbered as spec/opcode_table.json numbers it (R71, R73, R74). -/
def encode : Instr → Nat
  | .rd size a => (encodeRd size a).toNat
  | .wr size a data => (encodeWr size a data).toNat
  | .nop => (encodeCommand .nop).toNat
  | .pack => (encodeCommand .pack).toNat
  | .unpack => (encodeCommand .unpack).toNat
  | .divstep => (encodeCommand .divstep).toNat
  | .convert => (encodeCommand .convert).toNat
  | .incn => (encodeCommand .incn).toNat
  | .movvn => (encodeCommand .movvn).toNat
  | .clrerr => (encodeCommand .clrerr).toNat
  | .srst => (encodeCommand .srst).toNat

/-- The "mask" and "match" numbers of the instruction's row in spec/opcode_table.json. -/
def tableRow : Instr → Nat × Nat
  | .rd _ _ => (0x700300000000, 0x200000000000)
  | .wr _ _ _ => (0x700300000000, 0x600000000000)
  | .nop => (0xFFFFFFFF, 0x00000000)
  | .pack => (0xFFFFFFFF, 0x00000001)
  | .unpack => (0xFFFFFFFF, 0x00000002)
  | .divstep => (0xFFFFFFFF, 0x00000003)
  | .convert => (0xFFFFFFFF, 0x00000004)
  | .incn => (0xFFFFFFFF, 0x00000005)
  | .movvn => (0xFFFFFFFF, 0x00000006)
  | .clrerr => (0xFFFFFFFF, 0x00000007)
  | .srst => (0xFFFFFFFF, 0x000000FF)

end Sys2Proof
end

