-- ==== Sys2Proof/Config.lean ====
section
/-! DEFINITION. What an implementation fixes (spec/00_scope.md R6): MAXW, MAXD and BASE. -/

namespace Sys2Proof

/-- The two capacities of one instance (R6). An instance carries its own pair in its state and no step changes it
(log entry 1). -/
structure Config.Params where
  /-- MAXW: capacity of the byte buffer W in bytes. V is `8 * maxw` bits wide. -/
  maxw : Nat
  /-- MAXD: capacity of the digit buffer D. -/
  maxd : Nat
  deriving DecidableEq, Repr

/-- The legal values of R6's table: MAXW 16 to 255, MAXD 1 to 255. -/
abbrev Config.Params.Legal (p : Config.Params) : Prop :=
  16 ≤ p.maxw ∧ p.maxw ≤ 255 ∧ 1 ≤ p.maxd ∧ p.maxd ≤ 255

/-- R6's reference values: MAXW = 16, MAXD = 128. -/
def Config.reference : Config.Params := { maxw := 16, maxd := 128 }

/-- The 4096-byte page at which the platform places the register window. R6 leaves BASE open (OPEN, the platform's):
the constant has no body and no proof can see its value (log entry 2). -/
opaque Config.basePage : Nat

/-- BASE (R6): "any 4096-aligned address". -/
def Config.base : Nat := 4096 * Config.basePage

end Sys2Proof
end

