-- ==== Sys2Proof/Machine/State.lean ====
section
/-! DEFINITION. The state of one PEPPY-CODEC-128 instance with its host port, as plain data (spec/10_state.md R20,
R38), its reset, and the reasons a step can stop. -/

namespace Sys2Proof.Machine

/-- The block's own state: exactly the record of R20. Every element is an unsigned value. The block owns no memory
(R50); W and D are its buffers (log entry 13). -/
structure Block where
  /-- N, the 128-bit index register (R22). -/
  n : Index
  /-- W[0..MAXW-1], the byte buffer, W[0] first (R23). -/
  w : List Byte
  /-- WLEN, 8 bits: the word count of UNPACK (R24). -/
  wlen : BitVec 8
  /-- V, a natural below 2^(8*MAXW): the dividend, then the running quotient (R20, R25). -/
  v : Nat
  /-- RADIX, 32 bits (R26). -/
  radix : Word
  /-- LEN, 8 bits: the digit count of CONVERT (R27). -/
  len : BitVec 8
  /-- REM, 32 bits: the remainder of the last division step (R28). -/
  rem : Word
  /-- D[0..MAXD-1], the digit buffer, D[0] first (R29). -/
  d : List Word
  /-- STATUS.ERR, 8 bits: the pending error code (R33, R151). -/
  err : BitVec 8
  /-- STATUS.IGN, 1 bit: a command was dropped while an error was pending (R33, R159). -/
  ign : Bool
  deriving DecidableEq, Repr

/-- The response of one host transaction: ERR (1 bit) and RDATA (32 bits) (R71). -/
structure Response where
  err : Bool
  rdata : Word
  deriving DecidableEq, Repr

/-- The machine: one block with its fixed parameters, the level of its hardware reset input, and the host program at
its one port. The fields after `block` are the model's own (log entries 1, 3, 5). -/
structure State where
  /-- MAXW and MAXD of this instance, constants reported in CFG (R6, R31); no step changes them. -/
  cfg : Config.Params
  /-- the block's state (R20). -/
  block : Block
  /-- the hardware reset input is asserted (R180, R182). -/
  resetIn : Bool
  /-- the host program: the finite list of events delivered at the port, in order (R60, R70, R192). -/
  program : List HostEvent
  /-- the index of the next event in the host's program (R34). -/
  pc : Nat
  /-- what the host has observed: the response of every transaction so far, oldest first (R192). -/
  responses : List Response
  deriving DecidableEq, Repr

/-- The error codes a command can raise (R151); their numbers are `errCode`'s. -/
inductive ErrCode where
  /-- an index would lie outside [0, 2^128-1] (R152): INCN, MOVVN -/
  | range
  /-- radix below 2, or length below 1 (R153): DIVSTEP, CONVERT -/
  | config
  /-- word count above MAXW, or digit count above MAXD (R154): UNPACK, CONVERT -/
  | length
  /-- the command word decodes as Illegal (R155) -/
  | illegal
  deriving DecidableEq, Repr

/-- Why a step has no next state. Both are raised by `step` alone; no instruction's meaning faults. -/
inductive Fault where
  /-- Raised when the host program has no further event: the run has ended (R192). Safe: the spec does not say what
  the block does after the last transaction, so the model says nothing either (log entry 4). -/
  | runEnded
  /-- Raised when a transaction is issued while the hardware reset input is asserted: the run is stuck (R182). Safe:
  "the model has no step for it". -/
  | transactionDuringReset
  deriving DecidableEq, Repr

/-- Why an instruction is refused. -/
inductive Refusal where
  /-- Raised by `exec` for an instruction with no meaning yet. Safe. No arm answers it: every row is modelled. -/
  | notModelled (mnemonic : String)
  deriving DecidableEq, Repr

/-- The block right after reset (R38): every element 0. -/
def Block.afterReset (c : Config.Params) : Block where
  n := 0
  w := List.replicate c.maxw 0
  wlen := 0
  v := 0
  radix := 0
  len := 0
  rem := 0
  d := List.replicate c.maxd 0
  err := 0
  ign := false

/-- An instance with capacities `c` right after reset (R38, R183), idle, with no host program placed. -/
def State.resetWith (c : Config.Params) : State where
  cfg := c
  block := Block.afterReset c
  resetIn := false
  program := []
  pc := 0
  responses := []

/-- The machine right after reset, with R6's reference capacities (R38; log entries 1, 3, 6). -/
def State.reset : State := State.resetWith Config.reference

end Sys2Proof.Machine
end

