-- ==== Sys2Proof/Machine/Flags.lean ====
section
/-! DEFINITION. The flags: STATUS.ERR and STATUS.IGN are the only ones (spec/10_state.md R33, R35; spec/60_exceptions.md
R151). There are no condition codes. -/

namespace Sys2Proof.Machine

/-- The number of an error code (R151): 0 is "no error pending", 5 to 255 are never produced. -/
def errCode : ErrCode → BitVec 8
  | .range => 1
  | .config => 2
  | .length => 3
  | .illegal => 4

/-- STATUS as a register (R33, R90): `{23'b0, IGN, ERR[7:0]}`. -/
def statusWord (b : Block) : Word := 0#23 ++ BitVec.ofBool b.ign ++ b.err

/-- An error is pending: `ERR != 0` (R157, R159). -/
def errorPending (b : Block) : Bool := b.err != 0

/-- `ERR <- code` (R158). -/
def setErr (e : ErrCode) (b : Block) : Block := { b with err := errCode e }

/-- `IGN <- 1` (R157). -/
def setIgn (b : Block) : Block := { b with ign := true }

/-- `ERR <- 0; IGN <- 0` (R141). -/
def clearFlags (b : Block) : Block := { b with err := 0, ign := false }

end Sys2Proof.Machine
end

