-- ==== Sys2Proof/Machine/Operands.lean ====
section
/-! DEFINITION. The operand forms: the registers an offset of the window names (spec/10_state.md R39), the byte and
word views of N, W, V and D (R40 to R43), and the byte order of the codec (spec/00_scope.md R12, spec/20_memory.md R51,
R52). -/

namespace Sys2Proof.Machine

/-- The registers of the map R39. -/
inductive Reg where
  | id
  | cfg
  | cmd
  | status
  | n (k : Fin 4)
  | wlen
  | radix
  | len
  | rem
  | w (k : Fin 64)
  | v (k : Fin 64)
  | d (j : Fin 256)
  | reserved
  deriving DecidableEq, Repr

/-- The register at a 4-byte aligned offset (R39, R90, R91). -/
def regAt (a : Offset) : Reg :=
  let o := a.toNat
  if o = 0x000 then .id
  else if o = 0x004 then .cfg
  else if o = 0x008 then .cmd
  else if o = 0x00C then .status
  else if 0x010 ≤ o ∧ o < 0x020 then .n (Fin.ofNat 4 ((o - 0x010) / 4))
  else if o = 0x020 then .wlen
  else if o = 0x024 then .radix
  else if o = 0x028 then .len
  else if o = 0x02C then .rem
  else if 0x100 ≤ o ∧ o < 0x200 then .w (Fin.ofNat 64 ((o - 0x100) / 4))
  else if 0x200 ≤ o ∧ o < 0x300 then .v (Fin.ofNat 64 ((o - 0x200) / 4))
  else if 0x400 ≤ o ∧ o < 0x800 then .d (Fin.ofNat 256 ((o - 0x400) / 4))
  else .reserved

/-- The offset of a named register (R39). The first reserved offset, 0x030, stands for the reserved ones. -/
def offsetOf : Reg → Offset
  | .id => 0x000
  | .cfg => 0x004
  | .cmd => 0x008
  | .status => 0x00C
  | .n k => BitVec.ofNat 12 (0x010 + 4 * k.val)
  | .wlen => 0x020
  | .radix => 0x024
  | .len => 0x028
  | .rem => 0x02C
  | .w k => BitVec.ofNat 12 (0x100 + 4 * k.val)
  | .v k => BitVec.ofNat 12 (0x200 + 4 * k.val)
  | .d j => BitVec.ofNat 12 (0x400 + 4 * j.val)
  | .reserved => 0x030

/-- The block's offset that a byte address of the platform reaches, for a window at `base` (R6, R39, R50); none where
the address lies outside the 4096-byte window. -/
def windowOffset (base address : Nat) : Option Offset :=
  if base ≤ address ∧ address < base + 4096 then some (BitVec.ofNat 12 (address - base)) else none

/-- The block's offset that a byte address reaches in an instance whose window stands at BASE (R6, R39). -/
def busOffset (address : Nat) : Option Offset := windowOffset Config.base address

/-- `LEbyte(n, i) = n[8i+7:8i]` (R12, R51). -/
def leByte (n : Index) (i : Nat) : Byte := n.extractLsb' (8 * i) 8

/-- `LEsum(w, L) = Σ_{i<L} w[i] * 2^(8i)`, "Σ words[i] << (8·i)" (R12), with `w` a function of the position. -/
def leSum (w : Nat → Byte) (count : Nat) : Nat :=
  ((List.range count).map fun i => (w i).toNat <<< (8 * i)).sum

/-- W[i], which reads 0 for `i >= MAXW` (R40). -/
def readByte (c : Config.Params) (b : Block) (i : Nat) : Byte :=
  if i < c.maxw then b.w.getD i 0 else 0

/-- `W[i] <- x`, ignored for `i >= MAXW` (R40). -/
def writeByte (c : Config.Params) (i : Nat) (x : Byte) (b : Block) : Block :=
  if i < c.maxw then { b with w := b.w.set i x } else b

/-- Byte lane m of a 32-bit word, bits `8m+7:8m` (R52). -/
def lane (x : Word) (m : Nat) : Byte := x.extractLsb' (8 * m) 8

/-- Reading W_k: four bytes in little-endian lane order (R40). -/
def readW (c : Config.Params) (b : Block) (k : Nat) : Word :=
  readByte c b (4 * k + 3) ++ readByte c b (4 * k + 2) ++ readByte c b (4 * k + 1) ++ readByte c b (4 * k)

/-- Writing W_k: four bytes in little-endian lane order (R40). -/
def writeW (c : Config.Params) (k : Nat) (x : Word) (b : Block) : Block :=
  writeByte c (4 * k + 3) (lane x 3) (writeByte c (4 * k + 2) (lane x 2)
    (writeByte c (4 * k + 1) (lane x 1) (writeByte c (4 * k) (lane x 0) b)))

/-- Reading N_k: `N[32k+31:32k]` (R43). -/
def readN (b : Block) (k : Nat) : Word := b.n.extractLsb' (32 * k) 32

/-- Writing N_k: `N[32k+31:32k] <- x`, the other bits of N unchanged (R43). -/
def writeN (k : Nat) (x : Word) (b : Block) : Block :=
  { b with n := (b.n &&& ~~~(0xFFFFFFFF#128 <<< (32 * k))) ||| (x.setWidth 128 <<< (32 * k)) }

/-- Reading V_k: `V[32k+31:32k]`, which is `(V div 2^(32k)) mod 2^32` (R41). -/
def readV (b : Block) (k : Nat) : Word := BitVec.ofNat 32 (b.v >>> (32 * k))

/-- Reading D_j: D[j] when `j < MAXD`, 0 otherwise (R42). -/
def readD (c : Config.Params) (b : Block) (j : Nat) : Word :=
  if j < c.maxd then b.d.getD j 0 else 0

/-- ID, a constant (R30). -/
def idWord : Word := 0x50505943

/-- CFG, a constant of the instance: `{16'b0, MAXD[7:0], MAXW[7:0]}` (R31, R90). -/
def cfgWord (c : Config.Params) : Word := 0#16 ++ BitVec.ofNat 8 c.maxd ++ BitVec.ofNat 8 c.maxw

end Sys2Proof.Machine
end

