-- ==== Sys2Proof/Machine/Ops.lean ====
section
/-! DEFINITION. The shared operations: completing a transaction, taking an error and returning from one, the gate a
pending error puts before a command, reset, and the port (spec/20_memory.md R56, spec/60_exceptions.md R156 to R160,
spec/70_reset_and_hazards.md R180 to R182). -/

namespace Sys2Proof.Machine

/-- What every meaning answers. -/
abbrev Result := Host.Outcome State Fault Refusal

/-- The machine with its block replaced. -/
def State.setBlock (s : State) (b : Block) : State := { s with block := b }

/-- The port answers a transaction: the host observes the response (R71, R192). -/
def State.respond (s : State) (r : Response) : State := { s with responses := s.responses ++ [r] }

/-- A legal transaction completes with `err = 0` (R56) and the data it returns. -/
def complete (s : State) (rdata : Word) : Result := .next (s.respond { err := false, rdata := rdata })

/-- A write completes: "RDATA is 0 for every write" (R71). -/
def completeWrite (s : State) (b : Block) : Result := complete (s.setBlock b) 0

/-- BusError, the error response of a transaction: no state of the block changes, no command runs, STATUS is
unchanged, `rdata = 0` and `err = 1` (R56, R156). -/
def takeBusError (s : State) : Result := .next (s.respond { err := true, rdata := 0 })

/-- Taking a command error, `raise Error(code)`: ERR holds the code and nothing else changes (R11, R158). No program
counter or status is saved and control goes nowhere: the block has no trap (R150, R161). -/
def takeError (e : ErrCode) (b : Block) : Block := setErr e b

/-- Returning from an error (R160): CLRERR's effect, ERR and IGN cleared, nothing restored. -/
def returnFromError (b : Block) : Block := clearFlags b

/-- What a command does when it runs: new values for the block, or an error raised before its first write (R158). -/
abbrev Body := Config.Params → Block → Except ErrCode Block

/-- A command that Dispatch gates (R157): with an error pending it is dropped and IGN set; otherwise it runs, and an
error it raises is recorded in ERR with no partial output (R158). -/
def gated (c : Config.Params) (body : Body) (b : Block) : Block :=
  if errorPending b then setIgn b
  else match body c b with
    | .ok b' => b'
    | .error e => takeError e b

/-- `Reset()`: every element of R20 at its value of R38 (R181). -/
def resetBlock (c : Config.Params) : Block :=
  { n := 0, w := List.replicate c.maxw 0, wlen := 0, v := 0, radix := 0, len := 0, rem := 0,
    d := List.replicate c.maxd 0, err := 0, ign := false }

/-- The platform asserts the hardware reset input: `Reset()`, and the input stays asserted (R180, R181). -/
def assertResetInput (s : State) : State := { s with block := resetBlock s.cfg, resetIn := true }

/-- The platform releases the hardware reset input: the block is idle and accepts transactions at once (R180, R183). -/
def releaseResetInput (s : State) : State := { s with resetIn := false }

/-- The next event of the host's program (R34, R60); none after the last (R192). -/
def nextEvent (s : State) : Option HostEvent := s.program[s.pc]?

/-- Moving on to the host's next event (R34). -/
def advance (s : State) : State := { s with pc := s.pc + 1 }

/-- Moving on after an instruction that completed. -/
def advanceResult : Result → Result
  | .next s => .next (advance s)
  | .fault r => .fault r
  | .refused r => .refused r

/-- The transaction that issues an instruction given as a word of `nbits` bits: a host transaction is itself (47 bits,
or 48 as whole bytes), a command word is written to CMD (R70). -/
def portWord (nbits w : Nat) : TxnWord :=
  if nbits = 32 then cmdTxn (BitVec.ofNat 32 w) else BitVec.ofNat 47 w

/-- The program with event `e` at the index of the next event, and the rest as it was. -/
def placeNext (s : State) (e : HostEvent) : List HostEvent :=
  s.program.take s.pc ++ e :: s.program.drop (s.pc + 1)

end Sys2Proof.Machine
end

