-- ==== Sys2Proof/Machine/Codec.lean ====
section
/-! DEFINITION. The integer codec commands PACK, UNPACK, MOVVN and INCN (spec/41_codec.md R100 to R103). Each meaning
is what a legal write of the command's word to CMD does (spec/40_host_access.md R92). -/

namespace Sys2Proof.Machine

/-- PACK's W (R100): W[i] is `N[8i+7:8i]` for i < 16 and 0 from 16 on. -/
def packBytes (c : Config.Params) (n : Index) : List Byte :=
  (List.range c.maxw).map fun i => if i < 16 then leByte n i else 0

/-- R100: the bytes of N into W, the rest of W cleared, WLEN = 16. It never raises. -/
def packBody (c : Config.Params) (b : Block) : Except ErrCode Block :=
  .ok { b with w := packBytes c b.n, wlen := 16 }

/-- R101: V is the little-endian sum of W[0..WLEN-1]; LENGTH when WLEN > MAXW. -/
def unpackBody (c : Config.Params) (b : Block) : Except ErrCode Block :=
  if b.wlen.toNat > c.maxw then .error .length
  else .ok { b with v := leSum (readByte c b) b.wlen.toNat }

/-- R102: `N <- V`; RANGE when V >= 2^128. -/
def movvnBody (_ : Config.Params) (b : Block) : Except ErrCode Block :=
  if b.v ≥ 2 ^ 128 then .error .range else .ok { b with n := BitVec.ofNat 128 b.v }

/-- R103: `N <- N + 1`; RANGE when N = 2^128-1, so N never wraps. -/
def incnBody (_ : Config.Params) (b : Block) : Except ErrCode Block :=
  if b.n.toNat = 2 ^ 128 - 1 then .error .range else .ok { b with n := BitVec.ofNat 128 (b.n.toNat + 1) }

/-- PACK (R100), through Dispatch (R157). -/
def execPack (s : State) : Result := completeWrite s (gated s.cfg packBody s.block)

/-- UNPACK (R101), through Dispatch (R157). -/
def execUnpack (s : State) : Result := completeWrite s (gated s.cfg unpackBody s.block)

/-- MOVVN (R102), through Dispatch (R157). -/
def execMovvn (s : State) : Result := completeWrite s (gated s.cfg movvnBody s.block)

/-- INCN (R103), through Dispatch (R157). -/
def execIncn (s : State) : Result := completeWrite s (gated s.cfg incnBody s.block)

end Sys2Proof.Machine
end

