-- ==== Sys2Proof/Machine/Control.lean ====
section
/-! DEFINITION. The control commands NOP, CLRERR and SRST, which run even with an error pending, and what an Illegal
command word does (spec/43_control.md R140 to R143). -/

namespace Sys2Proof.Machine

/-- NOP (R140): no effect, ERR and IGN included. -/
def execNop (s : State) : Result := completeWrite s s.block

/-- CLRERR (R141), the return from an error (R160). -/
def execClrerr (s : State) : Result := completeWrite s (returnFromError s.block)

/-- SRST (R142): `Reset()` (R181). -/
def execSrst (s : State) : Result := completeWrite s (resetBlock s.cfg)

/-- An Illegal command word (R143): ILLEGAL when no error is pending, IGN otherwise. -/
def illegalWord (s : State) : Result := completeWrite s (gated s.cfg (fun _ _ => .error .illegal) s.block)

end Sys2Proof.Machine
end

