-- ==== Sys2Proof/Machine/Converter.lean ====
section
/-! DEFINITION. The mixed-radix converter commands DIVSTEP and CONVERT (spec/42_converter.md R120, R121). Quotients
are exact at V's full width (spec/00_scope.md R10). -/

namespace Sys2Proof.Machine

/-- R120: `REM <- V mod RADIX`, `V <- V div RADIX`; CONFIG when RADIX < 2. -/
def divstepBody (_ : Config.Params) (b : Block) : Except ErrCode Block :=
  if b.radix.toNat < 2 then .error .config
  else .ok { b with rem := BitVec.ofNat 32 (b.v % b.radix.toNat), v := b.v / b.radix.toNat }

/-- The digits of `v` in base `radix`, `count` of them, least significant first: the loop of R121. -/
def digits (radix : Nat) : Nat → Nat → List Word
  | 0, _ => []
  | count + 1, v => BitVec.ofNat 32 (v % radix) :: digits radix count (v / radix)

/-- What is left of `v` after `count` division steps: R121's discarded high-order part. -/
def quotient (radix : Nat) : Nat → Nat → Nat
  | 0, v => v
  | count + 1, v => quotient radix count (v / radix)

/-- D after CONVERT (R121): LEN digits, then zeros up to MAXD. -/
def digitBuffer (c : Config.Params) (b : Block) : List Word :=
  digits b.radix.toNat b.len.toNat b.v ++ List.replicate (c.maxd - b.len.toNat) 0

/-- R121: the checks in the order written, then LEN digits into D, the quotient into V and D[LEN-1] into REM. -/
def convertBody (c : Config.Params) (b : Block) : Except ErrCode Block :=
  if b.radix.toNat < 2 then .error .config
  else if b.len.toNat = 0 then .error .config
  else if b.len.toNat > c.maxd then .error .length
  else .ok { b with
    d := digitBuffer c b
    v := quotient b.radix.toNat b.len.toNat b.v
    rem := (digitBuffer c b).getD (b.len.toNat - 1) 0 }

/-- DIVSTEP (R120), through Dispatch (R157). -/
def execDivstep (s : State) : Result := completeWrite s (gated s.cfg divstepBody s.block)

/-- CONVERT (R121), through Dispatch (R157). -/
def execConvert (s : State) : Result := completeWrite s (gated s.cfg convertBody s.block)

end Sys2Proof.Machine
end

