-- ==== Sys2Proof/Machine/HostAccess.lean ====
section
/-! DEFINITION. The host's two transactions RD and WR, and Dispatch, which a write to CMD runs (spec/40_host_access.md
R90 to R92, spec/60_exceptions.md R157). -/

namespace Sys2Proof.Machine

/-- What a read of a register returns (R90); it has no side effect (R59). -/
def readReg (c : Config.Params) (b : Block) : Reg → Word
  | .id => idWord
  | .cfg => cfgWord c
  | .cmd => 0
  | .status => statusWord b
  | .n k => readN b k.val
  | .wlen => b.wlen.setWidth 32
  | .radix => b.radix
  | .len => b.len.setWidth 32
  | .rem => b.rem
  | .w k => readW c b k.val
  | .v k => readV b k.val
  | .d j => readD c b j.val
  | .reserved => 0

/-- What a write of a register other than CMD does (R91): accepted whether or not an error is pending (R44); RO
registers and reserved offsets ignore it (R39, R57). -/
def writeReg (c : Config.Params) (b : Block) (x : Word) : Reg → Block
  | .id => b
  | .cfg => b
  | .cmd => b
  | .status => b
  | .n k => writeN k.val x b
  | .wlen => { b with wlen := x.extractLsb' 0 8 }
  | .radix => { b with radix := x }
  | .len => { b with len := x.extractLsb' 0 8 }
  | .rem => b
  | .w k => writeW c k.val x b
  | .v _ => b
  | .d _ => b
  | .reserved => b

/-- `Dispatch(c)` (R157): the command that the word decodes to, or what an Illegal word does. -/
def dispatch (word : CmdWord) (s : State) : Result :=
  match decodeCommand word with
  | .ok .nop => execNop s
  | .ok .pack => execPack s
  | .ok .unpack => execUnpack s
  | .ok .divstep => execDivstep s
  | .ok .convert => execConvert s
  | .ok .incn => execIncn s
  | .ok .movvn => execMovvn s
  | .ok .clrerr => execClrerr s
  | .ok .srst => execSrst s
  | .error _ => illegalWord s

/-- RD (R90): BusError for an illegal size or alignment, checked before anything else (R156); otherwise the register's
value. No state of the block changes. -/
def execRd (size : Size) (a : Offset) (s : State) : Result :=
  if legalAccess size a then complete s (readReg s.cfg s.block (regAt a)) else takeBusError s

/-- WR (R91): BusError for an illegal size or alignment, checked before anything else (R156); a write to CMD
dispatches its data as a command word; any other write goes to the addressed register. -/
def execWr (size : Size) (a : Offset) (x : Word) (s : State) : Result :=
  if legalAccess size a then
    match regAt a with
    | .cmd => dispatch x s
    | r => completeWrite s (writeReg s.cfg s.block x r)
  else takeBusError s

end Sys2Proof.Machine
end

