-- ==== Sys2Proof/Machine/Dispatch.lean ====
section
/-! DEFINITION. One arm per constructor of Instr (one per row of spec/opcode_table.json). -/

namespace Sys2Proof.Machine

def exec (i : Instr) (s : State) : Host.Outcome State Fault Refusal :=
  match i with
  | .rd size a => Sys2Proof.Machine.execRd size a s
  | .wr size a x => Sys2Proof.Machine.execWr size a x s
  | .nop => Sys2Proof.Machine.execNop s
  | .pack => Sys2Proof.Machine.execPack s
  | .unpack => Sys2Proof.Machine.execUnpack s
  | .divstep => Sys2Proof.Machine.execDivstep s
  | .convert => Sys2Proof.Machine.execConvert s
  | .incn => Sys2Proof.Machine.execIncn s
  | .movvn => Sys2Proof.Machine.execMovvn s
  | .clrerr => Sys2Proof.Machine.execClrerr s
  | .srst => Sys2Proof.Machine.execSrst s

end Sys2Proof.Machine
end

