-- ==== Sys2Proof/Machine/Step.lean ====
section
/-! DEFINITION. One step: the next event of the host's program, performed to completion (spec/20_memory.md R60). -/

namespace Sys2Proof.Machine

/-- One step. A transaction is decoded and runs to completion before the next begins (R60); one issued while the reset
input is asserted has no step (R182); after the last event the run has ended (R192). -/
def step (s : State) : Host.Outcome State Fault Refusal :=
  match nextEvent s with
  | none => .fault .runEnded
  | some .assertReset => .next (advance (assertResetInput s))
  | some .releaseReset => .next (advance (releaseResetInput s))
  | some (.txn t) =>
    if s.resetIn then .fault .transactionDuringReset else advanceResult (exec (decodeTxn t) s)

/-- The state whose next event is the transaction that issues the word `w` of `nbits` bits, with the reset input
released so that it can run (R182). -/
def State.withFetchWord (s : State) (nbits w : Nat) : State :=
  { s with
    program := placeNext s (.txn (portWord nbits w))
    pc := min s.pc s.program.length
    resetIn := false }

end Sys2Proof.Machine
end

