-- ==== Sys2Proof/Machine/Assembler.lean ====
section
/-! DEFINITION. The assembler lines and pseudo-instructions of host programs (spec/30_encoding.md R79, R80): their text, and
what each expands to, as transactions in order. They have no effect of their own (spec/92_eei_decisions.md D31). -/

namespace Sys2Proof.Machine

/-- A register operand of R79: a named register, or an offset such as `@0x030`. -/
inductive AsmReg where
  | named (r : Reg)
  | offset (a : Offset)
  deriving DecidableEq, Repr

/-- One line of a host program in R79's syntax. -/
inductive AsmLine where
  | rd (r : AsmReg)
  | wr (r : AsmReg) (value : Word)
  | cmd (k : Command)
  deriving DecidableEq, Repr

/-- The pseudo-instructions of R80, other than `CMD <m>`, which is a line of R79. -/
inductive Pseudo where
  | wr128N (v : Index)
  | rd128N
  | rd128V
  | rdw16
  | wrw (bytes : List Byte)
  | rdd (count : Nat)
  deriving DecidableEq, Repr

/-- The offset a register operand names (R39, R79). -/
def asmOffset : AsmReg → Offset
  | .named r => offsetOf r
  | .offset a => a

/-- The transaction of one line (R79); `CMD <m>` writes the command word of m to CMD (R80). -/
def asmInstr : AsmLine → Instr
  | .rd r => .rd .word (asmOffset r)
  | .wr r value => .wr .word (asmOffset r) value
  | .cmd k => .wr .word cmdOffset (encodeCommand k)

/-- The four bytes W_k takes from `WRW`'s byte list, "missing bytes 0" (R80). -/
def wrwWord (bytes : List Byte) (k : Nat) : Word :=
  bytes.getD (4 * k + 3) 0 ++ bytes.getD (4 * k + 2) 0 ++ bytes.getD (4 * k + 1) 0 ++ bytes.getD (4 * k) 0

/-- The window has 64 W registers and 256 D registers (R39), so a pseudo-instruction names at most so many. -/
def pseudoWellFormed : Pseudo → Bool
  | .wrw bytes => decide (bytes.length ≤ 256)
  | .rdd count => decide (count ≤ 256)
  | .wr128N _ => true
  | .rd128N => true
  | .rd128V => true
  | .rdw16 => true

/-- The expansion of a pseudo-instruction: the listed transactions in the listed order (R80). -/
def expandPseudo : Pseudo → List AsmLine
  | .wr128N v =>
    [.wr (.named (.n 0)) (v.extractLsb' 0 32), .wr (.named (.n 1)) (v.extractLsb' 32 32),
      .wr (.named (.n 2)) (v.extractLsb' 64 32), .wr (.named (.n 3)) (v.extractLsb' 96 32)]
  | .rd128N => [.rd (.named (.n 0)), .rd (.named (.n 1)), .rd (.named (.n 2)), .rd (.named (.n 3))]
  | .rd128V => [.rd (.named (.v 0)), .rd (.named (.v 1)), .rd (.named (.v 2)), .rd (.named (.v 3))]
  | .rdw16 => [.rd (.named (.w 0)), .rd (.named (.w 1)), .rd (.named (.w 2)), .rd (.named (.w 3))]
  | .wrw bytes =>
    (List.finRange 64).filterMap fun k =>
      if 4 * k.val < bytes.length then some (.wr (.named (.w k)) (wrwWord bytes k.val)) else none
  | .rdd count =>
    (List.finRange 256).filterMap fun j => if j.val < count then some (.rd (.named (.d j))) else none

/-- The host program of a list of lines: each line's transaction as its 47 bits (R70, R71). -/
def assemble (lines : List AsmLine) : List HostEvent :=
  lines.map fun l => .txn (BitVec.ofNat 47 (encode (asmInstr l)))

/-! ### The text of a line (R79, R80) -/

/-- The value of a digit character below 16. -/
def digitValue (c : Char) : Option Nat :=
  if '0' ≤ c ∧ c ≤ '9' then some (c.toNat - 48)
  else if 'A' ≤ c ∧ c ≤ 'F' then some (c.toNat - 55)
  else if 'a' ≤ c ∧ c ≤ 'f' then some (c.toNat - 87)
  else none

/-- The digits of a number in a base, most significant first, after `acc`. R8 says only that `_` groups digits: where it
may stand, directly before a digit and (by readNumeral) never first, is the model's choice (DESIGN CHOICE, log entry 17). -/
def readDigits (base acc : Nat) : List Char → Option Nat
  | [] => some acc
  | c :: cs =>
    if c = '_' then (if (digitValue (cs.headD '_')).isSome then readDigits base acc cs else none)
    else match digitValue c with
      | some x => if x < base then readDigits base (base * acc + x) cs else none
      | none => none

/-- A numeral in a base: at least one character, the first a digit, so that every `_` stands between two digits
(DESIGN CHOICE, log entry 17: R8 does not say where it may stand). -/
def readNumeral (base : Nat) (cs : List Char) : Option Nat :=
  if cs.headD '_' = '_' then none else readDigits base 0 cs

/-- A decimal or 0x-hex number (R79) below `bound`. Its spelling is the model's choice (DESIGN CHOICE, log entry 17: R79
does not say): the prefix is `0x` alone, hex digits are of either case, leading zeros are allowed, and a number of
`bound` or more is no number. -/
def readNumber (bound : Nat) (cs : List Char) : Option Nat :=
  let value : Option Nat := match cs with
    | '0' :: 'x' :: ds => readNumeral 16 ds
    | ds => readNumeral 10 ds
  value.filter (· < bound)

/-- The index of a register of a family of `count` (R79's N0 to N3, W0 to W63, V0 to V63, D0 to D255). R79 gives only
these names: an index is read in decimal without leading zero and without `_`, and another spelling of it (`N00`, `W0x3`,
`N_1`) is no name of a register (DESIGN CHOICE, log entry 17). -/
def readIndex (count : Nat) (r : Fin count → Reg) (cs : List Char) : Option AsmReg :=
  if '_' ∈ cs ∨ (cs.head? = some '0' ∧ cs ≠ ['0']) then none
  else match readNumeral 10 cs with
    | some k => if h : k < count then some (.named (r ⟨k, h⟩)) else none
    | none => none

/-- A register name or an offset such as `@0x030` (R79). -/
def readReg79 : List Char → Option AsmReg
  | ['I', 'D'] => some (.named .id)
  | ['C', 'F', 'G'] => some (.named .cfg)
  | ['C', 'M', 'D'] => some (.named .cmd)
  | ['S', 'T', 'A', 'T', 'U', 'S'] => some (.named .status)
  | ['W', 'L', 'E', 'N'] => some (.named .wlen)
  | ['R', 'A', 'D', 'I', 'X'] => some (.named .radix)
  | ['L', 'E', 'N'] => some (.named .len)
  | ['R', 'E', 'M'] => some (.named .rem)
  | 'N' :: cs => readIndex 4 .n cs
  | 'W' :: cs => readIndex 64 .w cs
  | 'V' :: cs => readIndex 64 .v cs
  | 'D' :: cs => readIndex 256 .d cs
  | '@' :: cs => (readNumber 4096 cs).map fun a => .offset (BitVec.ofNat 12 a)
  | _ => none

/-- A command's mnemonic (R74). -/
def readCommand : List Char → Option Command
  | ['N', 'O', 'P'] => some .nop
  | ['P', 'A', 'C', 'K'] => some .pack
  | ['U', 'N', 'P', 'A', 'C', 'K'] => some .unpack
  | ['D', 'I', 'V', 'S', 'T', 'E', 'P'] => some .divstep
  | ['C', 'O', 'N', 'V', 'E', 'R', 'T'] => some .convert
  | ['I', 'N', 'C', 'N'] => some .incn
  | ['M', 'O', 'V', 'V', 'N'] => some .movvn
  | ['C', 'L', 'R', 'E', 'R', 'R'] => some .clrerr
  | ['S', 'R', 'S', 'T'] => some .srst
  | _ => none

/-- A line without its comment, "text after ;", and without the recorded value, "-> v" (R79; that it is left out on any
line, not after RD alone, is DESIGN CHOICE, log entry 17). -/
def lineText : List Char → List Char
  | [] => []
  | ';' :: _ => []
  | '-' :: '>' :: _ => []
  | c :: cs => c :: lineText cs

/-- The tokens of a line: what stands between spaces and commas, alike (DESIGN CHOICE, log entry 17: R79 does not say). -/
def tokens : List Char → List (List Char)
  | [] => []
  | c :: cs =>
    if c = ' ' ∨ c = ',' then [] :: tokens cs
    else match tokens cs with
      | [] => [[c]]
      | t :: ts => (c :: t) :: ts

/-- The bytes of `WRW` (R80). -/
def readBytes : List (List Char) → Option (List Byte)
  | [] => some []
  | t :: ts =>
    match readNumber 256 t, readBytes ts with
    | some b, some bs => some (BitVec.ofNat 8 b :: bs)
    | _, _ => none

/-- The tokens of one line as the transactions it stands for; an empty line stands for none (R79, R80; the
empty line is DESIGN CHOICE, log entry 17). -/
def readTokens : List (List Char) → Option (List AsmLine)
  | [] => some []
  | [['R', 'D'], r] => (readReg79 r).map fun r => [.rd r]
  | [['W', 'R'], r, v] =>
    match readReg79 r, readNumber (2 ^ 32) v with
    | some r, some v => some [.wr r (BitVec.ofNat 32 v)]
    | _, _ => none
  | [['C', 'M', 'D'], m] => (readCommand m).map fun k => [.cmd k]
  | [['W', 'R', '1', '2', '8'], ['N'], v] =>
    (readNumber (2 ^ 128) v).map fun v => expandPseudo (.wr128N (BitVec.ofNat 128 v))
  | [['R', 'D', '1', '2', '8'], ['N']] => some (expandPseudo .rd128N)
  | [['R', 'D', '1', '2', '8'], ['V']] => some (expandPseudo .rd128V)
  | [['R', 'D', 'W', '1', '6']] => some (expandPseudo .rdw16)
  | [['R', 'D', 'D'], n] => (readNumber 257 n).map fun n => expandPseudo (.rdd n)
  | ['W', 'R', 'W'] :: bs =>
    match readBytes bs with
    | some bytes => if pseudoWellFormed (.wrw bytes) then some (expandPseudo (.wrw bytes)) else none
    | none => none
  | _ => none

/-- One line of a host program's text (R79, R80); none where the text is no line of that syntax. -/
def readLine (cs : List Char) : Option (List AsmLine) :=
  readTokens ((tokens (lineText cs)).filter (· ≠ []))

end Sys2Proof.Machine
end

