-- ==== Sys2Proof/Safety.lean ====
section
/-! DEFINITION. What holds of every reachable state, and what counts as a safe state and a safe step, in the terms the
statements use (spec/10_state.md R20, R25, R33; spec/60_exceptions.md R151, R159; spec/70_reset_and_hazards.md R182). -/

namespace Sys2Proof.Machine

/-- The block fits its parameters: the buffers have MAXW bytes and MAXD digits (R20), `V < 2^(8*MAXW)` (R25), ERR
holds no reserved code (R33, R151), and "IGN = 1 implies ERR != 0" (R159). -/
abbrev Block.Inv (c : Config.Params) (b : Block) : Prop :=
  b.w.length = c.maxw ∧ b.d.length = c.maxd ∧ b.v < 2 ^ (8 * c.maxw) ∧ b.err.toNat ≤ 4 ∧ (b.ign = true → b.err ≠ 0)

/-- The machine's invariant: legal parameters (R6), a block that fits them, an index into the host's program (R34), and
a block at its reset values while the reset input is asserted (R181, R182). -/
abbrev State.Inv (s : State) : Prop :=
  s.cfg.Legal ∧ s.block.Inv s.cfg ∧ s.pc ≤ s.program.length ∧ (s.resetIn = true → s.block = resetBlock s.cfg)

/-- A safe state: the host keeps its duty of R182, and issues no transaction while the reset input is asserted. -/
abbrev State.HostConforms (s : State) : Prop :=
  s.resetIn = true → ∀ t, nextEvent s ≠ some (.txn t)

/-- What of the machine a transaction never changes: its parameters, the reset input, the host's program and the index
into it (the step moves the index, R34). -/
abbrev SamePort (s t : State) : Prop :=
  t.cfg = s.cfg ∧ t.resetIn = s.resetIn ∧ t.program = s.program ∧ t.pc = s.pc

/-- `t` is `s` after a transaction that completed with `err = 0` and this RDATA, with the block as given: everything
else as it was (R56, R71). -/
def State.after (s : State) (b : Block) (rdata : Word) : State :=
  { s with block := b, responses := s.responses ++ [{ err := false, rdata := rdata }] }

/-- Performing instructions one after the other, each to completion (R60): the state after the last. -/
def execAll : List Instr → State → Result
  | [], s => .next s
  | i :: is, s =>
    match exec i s with
    | .next t => execAll is t
    | .fault r => .fault r
    | .refused r => .refused r

end Sys2Proof.Machine
end

