-- ==== Sys2Proof/Certificates/Slice0/Obligations.lean ====
section
/-! DEFINITION. The statements for the provers. Each docstring names the rule of spec/ it formalises, and says where a
clause rests on a choice of the model's. `s.after b x` is `s` with block `b` and one more response (err 0, RDATA x), all
else as it was, so an equation with it states the result and the frame at once. -/

open Sys2Proof Sys2Proof.Machine

/-! ### Encoding -/

/-- R71, R73, R74: the decoder reads back every instruction the encoder writes, with every operand at every value. -/
def Obligations.DecodeOfEncode : Prop :=
  ∀ i : Instr, decodeTableWord (encodeBits i) (encode i) = some i

/-- R71: re-encoding a decoded transaction gives the same 47 bits, but for a read's "don't care" WDATA, which the
encoder writes as zeros (the model's choice, log entry 10). -/
def Obligations.EncodeOfDecodedTransaction : Prop :=
  ∀ t : TxnWord, encode (decodeTxn t) = if t.getLsbD 46 then t.toNat else t.toNat / 2 ^ 32 * 2 ^ 32

/-- R76: which of the 2^32 command words decode to which command, and which are Illegal. -/
def Obligations.CommandWordDecoding : Prop :=
  ∀ c : CmdWord,
    (decodeCommand c = .ok .nop ↔ c = 0x00000000) ∧ (decodeCommand c = .ok .pack ↔ c = 0x00000001) ∧
    (decodeCommand c = .ok .unpack ↔ c = 0x00000002) ∧ (decodeCommand c = .ok .divstep ↔ c = 0x00000003) ∧
    (decodeCommand c = .ok .convert ↔ c = 0x00000004) ∧ (decodeCommand c = .ok .incn ↔ c = 0x00000005) ∧
    (decodeCommand c = .ok .movvn ↔ c = 0x00000006) ∧ (decodeCommand c = .ok .clrerr ↔ c = 0x00000007) ∧
    (decodeCommand c = .ok .srst ↔ c = 0x000000FF) ∧
    ((∃ e, decodeCommand c = .error e) ↔
      c.extractLsb' 8 24 ≠ 0 ∨ (0x08 ≤ (c.extractLsb' 0 8).toNat ∧ (c.extractLsb' 0 8).toNat ≤ 0xFE))

/-- R72 with the masks of spec/opcode_table.json: a transaction is well formed exactly when it matches the RD row or the
WR row, and it decodes to the instruction of the row it matches. -/
def Obligations.WellFormedMatchesTableRow : Prop :=
  ∀ t : TxnWord,
    (WellFormed (decodeTxn t) = true ↔
      t.toNat &&& 0x700300000000 = 0x200000000000 ∨ t.toNat &&& 0x700300000000 = 0x600000000000) ∧
    (t.toNat &&& 0x700300000000 = 0x200000000000 → decodeTxn t = .rd .word (t.extractLsb' 32 12)) ∧
    (t.toNat &&& 0x700300000000 = 0x600000000000 →
      decodeTxn t = .wr .word (t.extractLsb' 32 12) (t.extractLsb' 0 32))

/-- R71, R74, spec/95_test_vectors.md: words written out from the spec's encodings decode to their instructions. -/
def Obligations.WrittenWordsDecode : Prop :=
  decodeTableWord 48 0x200C00000000 = some (.rd .word 0x00C) ∧
  decodeTableWord 48 0x601003020100 = some (.wr .word 0x010 0x03020100) ∧
  decodeTableWord 48 0x501000000001 = some (.wr .half 0x010 0x00000001) ∧
  decodeTableWord 32 0x00000000 = some .nop ∧ decodeTableWord 32 0x00000004 = some .convert ∧
  decodeTableWord 32 0x000000FF = some .srst ∧ decodeTableWord 32 0x00000100 = none ∧
  decodeTableWord 32 0x00000008 = none

/-! ### The step and the port -/

/-- A step runs the decoded transaction and moves on to the host's next event (R34, R60; the host's program and its
index are the model's own fields, log entry 3). -/
def Obligations.StepRunsDecodedTransaction : Prop :=
  ∀ (s : State) (t : TxnWord), s.program[s.pc]? = some (.txn t) → s.resetIn = false →
    ∀ u, exec (decodeTxn t) s = .next u → step s = .next { u with pc := u.pc + 1 }

/-- A word-sized WR of a command's word to CMD runs that command (R70, R73, R92); the host's program and its index are the
model's own fields (log entry 3). -/
def Obligations.StepRunsCommandWrittenToCmd : Prop :=
  ∀ (s : State) (k : Command) (u : State),
    s.program[s.pc]? = some (.txn (0x600800000000 ||| (encodeCommand k).setWidth 47)) → s.resetIn = false →
    exec k.toInstr s = .next u → step s = .next { u with pc := u.pc + 1 }

/-- The instruction placed by withFetchWord is the one the next step runs (log entry 3), for both formats. -/
def Obligations.StepRunsPlacedWord : Prop :=
  ∀ (s : State) (nbits w : Nat) (i : Instr), decodeTableWord nbits w = some i →
    step (s.withFetchWord nbits w) = advanceResult (exec i (s.withFetchWord nbits w))

/-- R192 with the model's choice of log entry 4: after the last event a step has no next state. -/
def Obligations.RunEndsAfterLastEvent : Prop :=
  ∀ s : State, s.program.length ≤ s.pc → step s = .fault .runEnded

/-- R182: a transaction issued while the reset input is asserted has no step (the fault's name is the model's). -/
def Obligations.NoStepForTransactionDuringReset : Prop :=
  ∀ (s : State) (t : TxnWord), s.program[s.pc]? = some (.txn t) → s.resetIn = true →
    step s = .fault .transactionDuringReset

/-- R180, R181, with the model's choice that `Reset()` runs when the input is asserted (log entry 5): the hardware reset
input sets every element to its reset value, and after its release the block is as it was. The index moving on is the
model's choice (log entries 3 and 5). -/
def Obligations.HardwareResetInput : Prop :=
  ∀ s : State,
    (s.program[s.pc]? = some .assertReset →
      step s = .next { s with
        block := { n := 0, w := List.replicate s.cfg.maxw 0, wlen := 0, v := 0, radix := 0, len := 0, rem := 0,
                   d := List.replicate s.cfg.maxd 0, err := 0, ign := false }
        resetIn := true
        pc := s.pc + 1 }) ∧
    (s.program[s.pc]? = some .releaseReset → step s = .next { s with resetIn := false, pc := s.pc + 1 })

/-- No step changes the parameters or the host's program, and each moves on by one event. All three fields are the
model's own: the parameters (R6) as a field no step changes are log entry 1, the host's program and the index of its next
event log entry 3. R34 and R63 speak of transactions, one after another; that a reset event moves the index on too is the
model's choice (log entries 3 and 5). -/
def Obligations.StepKeepsParametersAndProgram : Prop :=
  ∀ s t : State, step s = .next t → t.cfg = s.cfg ∧ t.program = s.program ∧ t.pc = s.pc + 1

/-- R56, R71, R192: a transaction gets exactly one response, with `err = 1` exactly when it is illegal; a reset event
gets none (the model's choice, log entry 5). The list of responses and the host's program are the model's own fields (log
entry 3). -/
def Obligations.EveryTransactionIsAnswered : Prop :=
  ∀ s t : State, step s = .next t →
    (∀ w, s.program[s.pc]? = some (.txn w) →
      ∃ r : Response, t.responses = s.responses ++ [r] ∧ (r.err = true ↔ WellFormed (decodeTxn w) = false)) ∧
    ((∀ w, s.program[s.pc]? ≠ some (.txn w)) → t.responses = s.responses)

/-- R182, R188, R190: while the host issues no transaction with the reset input asserted, every event of its program has
a step; the block never leaves a transaction unanswered. The host's program and its index are the model's own fields (log
entry 3), and that a reset event has a step is the model's choice (log entry 5). -/
def Obligations.ConformingHostAlwaysSteps : Prop :=
  ∀ s : State, s.HostConforms → s.pc < s.program.length → ∃ t, step s = .next t

/-- R92, R188: every instruction completes in every state, answering one response and leaving the parameters, the reset
input and the host's program alone (the parameters as a field, the reset input's level, the program, its index and the
responses are the model's own fields, log entries 1, 3, 5). -/
def Obligations.EveryInstructionCompletes : Prop :=
  ∀ (i : Instr) (s : State),
    ∃ t r, exec i s = .next t ∧ SamePort s t ∧ t.responses = s.responses ++ [r]

/-! ### Host access -/

/-- R54, R55, R56, R156: an illegal size or a misaligned offset gives BusError whatever else holds; every other
transaction completes with `err = 0`. -/
def Obligations.BusErrorExactlyForIllegalAccess : Prop :=
  ∀ (size : Size) (a : Offset) (x : Word) (s : State),
    (size ≠ .word ∨ a.extractLsb' 0 2 ≠ 0 →
      exec (.rd size a) s = .next { s with responses := s.responses ++ [{ err := true, rdata := 0 }] } ∧
      exec (.wr size a x) s = .next { s with responses := s.responses ++ [{ err := true, rdata := 0 }] }) ∧
    (size = .word → a.extractLsb' 0 2 = 0 →
      (∃ y, exec (.rd size a) s = .next (s.after s.block y)) ∧ ∃ b, exec (.wr size a x) s = .next (s.after b 0))

/-- R72: which 47-bit requests are legal, and what the others do. -/
def Obligations.LegalTransactionFields : Prop :=
  ∀ (t : TxnWord) (s : State),
    if t.extractLsb' 44 2 = 2 ∧ t.extractLsb' 32 2 = 0 then
      WellFormed (decodeTxn t) = true ∧ ∃ b y, exec (decodeTxn t) s = .next (s.after b y)
    else
      WellFormed (decodeTxn t) = false ∧
      exec (decodeTxn t) s = .next { s with responses := s.responses ++ [{ err := true, rdata := 0 }] }

/-- R90: what a read returns at every offset and size; no state of the block changes. -/
def Obligations.ReadReturnsRegister : Prop :=
  ∀ (size : Size) (a : Offset) (s : State),
    exec (.rd size a) s =
      if size ≠ .word ∨ a.extractLsb' 0 2 ≠ 0 then
        .next { s with responses := s.responses ++ [{ err := true, rdata := 0 }] }
      else .next (s.after s.block (
        let o := a.toNat
        if o = 0x000 then 0x50505943
        else if o = 0x004 then BitVec.ofNat 32 (s.cfg.maxd % 2 ^ 8 * 2 ^ 8 + s.cfg.maxw % 2 ^ 8)
        else if o = 0x008 then 0
        else if o = 0x00C then BitVec.ofNat 32 ((if s.block.ign then 1 else 0) * 2 ^ 8 + s.block.err.toNat)
        else if 0x010 ≤ o ∧ o < 0x020 then BitVec.ofNat 32 (s.block.n.toNat / 2 ^ (8 * (o - 0x010)) % 2 ^ 32)
        else if o = 0x020 then BitVec.ofNat 32 s.block.wlen.toNat
        else if o = 0x024 then s.block.radix
        else if o = 0x028 then BitVec.ofNat 32 s.block.len.toNat
        else if o = 0x02C then s.block.rem
        else if 0x100 ≤ o ∧ o < 0x200 then
          BitVec.ofNat 32 (∑ m ∈ Finset.range 4,
            (if o - 0x100 + m < s.cfg.maxw then (s.block.w.getD (o - 0x100 + m) 0).toNat else 0) * 2 ^ (8 * m))
        else if 0x200 ≤ o ∧ o < 0x300 then BitVec.ofNat 32 (s.block.v / 2 ^ (8 * (o - 0x200)) % 2 ^ 32)
        else if 0x400 ≤ o ∧ o < 0x800 then
          if (o - 0x400) / 4 < s.cfg.maxd then s.block.d.getD ((o - 0x400) / 4) 0 else 0
        else 0))

/-- R91: what a write does at every offset and size; every write to a register other than CMD is accepted whether or
not an error is pending, and a read-only register or reserved offset ignores it. -/
def Obligations.WriteUpdatesRegister : Prop :=
  ∀ (size : Size) (a : Offset) (x : Word) (s : State),
    exec (.wr size a x) s =
      if size ≠ .word ∨ a.extractLsb' 0 2 ≠ 0 then
        .next { s with responses := s.responses ++ [{ err := true, rdata := 0 }] }
      else
        let o := a.toNat
        if o = 0x008 then dispatch x s
        else .next (s.after (
          if 0x010 ≤ o ∧ o < 0x020 then
            { s.block with n := (s.block.n &&& ~~~(0xFFFFFFFF#128 <<< (8 * (o - 0x010)))) |||
                                  (x.setWidth 128 <<< (8 * (o - 0x010))) }
          else if o = 0x020 then { s.block with wlen := BitVec.ofNat 8 (x.toNat % 2 ^ 8) }
          else if o = 0x024 then { s.block with radix := x }
          else if o = 0x028 then { s.block with len := BitVec.ofNat 8 (x.toNat % 2 ^ 8) }
          else if 0x100 ≤ o ∧ o < 0x200 then
            { s.block with w := s.block.w.mapIdx fun i y =>
                if o - 0x100 ≤ i ∧ i < o - 0x100 + 4 ∧ i < s.cfg.maxw then
                  BitVec.ofNat 8 (x.toNat / 2 ^ (8 * (i - (o - 0x100))))
                else y }
          else s.block) 0)

/-- R157: Dispatch of every command word written to CMD, in its order. -/
def Obligations.DispatchOfCommandWord : Prop :=
  ∀ (c : CmdWord) (s : State),
    exec (.wr .word 0x008 c) s =
      if c = 0x000000FF then
        .next (s.after { n := 0, w := List.replicate s.cfg.maxw 0, wlen := 0, v := 0, radix := 0, len := 0, rem := 0,
                         d := List.replicate s.cfg.maxd 0, err := 0, ign := false } 0)
      else if c = 0x00000007 then .next (s.after { s.block with err := 0, ign := false } 0)
      else if c = 0x00000000 then .next (s.after s.block 0)
      else if s.block.err ≠ 0 then .next (s.after { s.block with ign := true } 0)
      else if c = 0x00000001 then exec .pack s
      else if c = 0x00000002 then exec .unpack s
      else if c = 0x00000003 then exec .divstep s
      else if c = 0x00000004 then exec .convert s
      else if c = 0x00000005 then exec .incn s
      else if c = 0x00000006 then exec .movvn s
      else .next (s.after { s.block with err := 4 } 0)

/-- R59: reads are idempotent and free of side effects; repeating a write to any register but CMD changes nothing
more. -/
def Obligations.AccessesAreIdempotent : Prop :=
  ∀ (size : Size) (a : Offset) (x : Word) (s : State),
    (∃ t u r, exec (.rd size a) s = .next t ∧ exec (.rd size a) t = .next u ∧ t.block = s.block ∧ u.block = s.block ∧
      u.responses = s.responses ++ [r, r]) ∧
    (a ≠ 0x008 → ∃ t u, exec (.wr size a x) s = .next t ∧ exec (.wr size a x) t = .next u ∧ u.block = t.block)

/-- R43: a write to N_k is read back from N_k and leaves the other N registers as they were. -/
def Obligations.NWordReadBack : Prop :=
  ∀ (k j : Fin 4) (x : Word) (s : State),
    ∃ t, exec (.wr .word (BitVec.ofNat 12 (0x010 + 4 * k.val)) x) s = .next t ∧
      (∀ i < 128, t.block.n.getLsbD i =
        if 32 * k.val ≤ i ∧ i < 32 * k.val + 32 then x.getLsbD (i - 32 * k.val) else s.block.n.getLsbD i) ∧
      exec (.rd .word (BitVec.ofNat 12 (0x010 + 4 * j.val))) t =
        .next (t.after t.block (if j = k then x else s.block.n.extractLsb' (32 * j.val) 32))

/-- R44: WLEN and LEN keep `wdata[7:0]`, RADIX keeps all 32 bits, the stored value is the written one, and the write is
accepted whether or not an error is pending. -/
def Obligations.PlainRegistersKeepWrittenValue : Prop :=
  ∀ (x : Word) (s : State),
    exec (.wr .word 0x020 x) s = .next (s.after { s.block with wlen := x.extractLsb' 0 8 } 0) ∧
    exec (.wr .word 0x024 x) s = .next (s.after { s.block with radix := x } 0) ∧
    exec (.wr .word 0x028 x) s = .next (s.after { s.block with len := x.extractLsb' 0 8 } 0)

/-- R40: after a write of W_k, its bytes below MAXW read back and those from MAXW on read 0, every other byte of W is
as it was, and WLEN does not change. The premise, that W has MAXW bytes, is part of the invariant `State.Inv`. -/
def Obligations.WWindowReadBack : Prop :=
  ∀ (k : Fin 64) (x : Word) (s : State), s.block.w.length = s.cfg.maxw →
    ∃ t, exec (.wr .word (BitVec.ofNat 12 (0x100 + 4 * k.val)) x) s = .next t ∧
      t.block = { s.block with w := t.block.w } ∧ t.block.w.length = s.cfg.maxw ∧
      (∀ i < s.cfg.maxw, t.block.w.getD i 0 =
        if 4 * k.val ≤ i ∧ i < 4 * k.val + 4 then x.extractLsb' (8 * (i - 4 * k.val)) 8 else s.block.w.getD i 0) ∧
      ∃ y, exec (.rd .word (BitVec.ofNat 12 (0x100 + 4 * k.val))) t = .next (t.after t.block y) ∧
        ∀ m < 4, y.extractLsb' (8 * m) 8 = if 4 * k.val + m < s.cfg.maxw then x.extractLsb' (8 * m) 8 else 0

/-- R35, R39: no two offsets alias: a write to any register but CMD leaves what every other offset reads as it was. -/
def Obligations.WriteLeavesOtherOffsetsAlone : Prop :=
  ∀ (a a' : Offset) (x : Word) (s : State), a ≠ 0x008 → a' ≠ a → aligned a = true → aligned a' = true →
    ∃ t y, exec (.wr .word a x) s = .next t ∧ exec (.rd .word a') s = .next (s.after s.block y) ∧
      exec (.rd .word a') t = .next (t.after t.block y)

/-- R57: a legal transaction to a reserved offset, or to a W, V or D register beyond the parameters, completes with
`err = 0`; it reads 0 and a write changes nothing. The premise on V is part of the invariant `State.Inv`. -/
def Obligations.ReservedOffsetsReadZeroIgnoreWrites : Prop :=
  ∀ (a : Offset) (x : Word) (s : State), aligned a = true → s.block.v < 2 ^ (8 * s.cfg.maxw) →
    ((0x030 ≤ a.toNat ∧ a.toNat ≤ 0x0FC) ∨ (0x300 ≤ a.toNat ∧ a.toNat ≤ 0x3FC) ∨
      (0x800 ≤ a.toNat ∧ a.toNat ≤ 0xFFC) ∨
      (0x100 ≤ a.toNat ∧ a.toNat ≤ 0x1FC ∧ s.cfg.maxw ≤ a.toNat - 0x100) ∨
      (0x200 ≤ a.toNat ∧ a.toNat ≤ 0x2FC ∧ s.cfg.maxw ≤ a.toNat - 0x200) ∨
      (0x400 ≤ a.toNat ∧ a.toNat ≤ 0x7FC ∧ s.cfg.maxd ≤ (a.toNat - 0x400) / 4)) →
    exec (.rd .word a) s = .next (s.after s.block 0) ∧ exec (.wr .word a x) s = .next (s.after s.block 0)

/-- R6, R39, R50: a window is the 4096 bytes at its base, each offset at its own address; BASE is 4096-aligned and its
value stays open. -/
def Obligations.WindowIsPlacedAtBase : Prop :=
  (∀ base address : Nat, ∀ a : Offset,
    windowOffset base address = some a ↔ base ≤ address ∧ address < base + 4096 ∧ address = base + a.toNat) ∧
  Config.base % 4096 = 0 ∧ ∀ a : Offset, busOffset (Config.base + a.toNat) = some a

/-! ### The integer codec -/

/-- R100: PACK gives W the little-endian bytes of N, clears the rest of W and sets WLEN to 16; nothing else changes. -/
def Obligations.PackGivesLittleEndianBytes : Prop :=
  ∀ s : State, s.block.err = 0 →
    ∃ w' : List Byte, w'.length = s.cfg.maxw ∧
      (∀ i < s.cfg.maxw, (w'.getD i 0).toNat = if i < 16 then s.block.n.toNat / 2 ^ (8 * i) % 2 ^ 8 else 0) ∧
      exec .pack s = .next (s.after { s.block with w := w', wlen := 16 } 0)

/-- R101: UNPACK gives V the sum of W[i] * 2^(8i) for i < WLEN, or raises LENGTH; nothing else changes. -/
def Obligations.UnpackSumsBytes : Prop :=
  ∀ s : State, s.block.err = 0 →
    exec .unpack s = .next (s.after (
      if s.block.wlen.toNat > s.cfg.maxw then { s.block with err := 3 }
      else { s.block with
        v := ∑ i ∈ Finset.range s.block.wlen.toNat, (s.block.w.getD i 0).toNat * 2 ^ (8 * i) }) 0)

/-- R102: MOVVN copies V into N, or raises RANGE when V >= 2^128; nothing else changes. -/
def Obligations.MovvnChecksRange : Prop :=
  ∀ s : State, s.block.err = 0 →
    (s.block.v < 2 ^ 128 → exec .movvn s = .next (s.after { s.block with n := BitVec.ofNat 128 s.block.v } 0)) ∧
    (2 ^ 128 ≤ s.block.v → exec .movvn s = .next (s.after { s.block with err := 1 } 0))

/-- R103: INCN adds one to N, or raises RANGE at 2^128-1 and never wraps; nothing else changes. -/
def Obligations.IncnNeverWraps : Prop :=
  ∀ s : State, s.block.err = 0 →
    (s.block.n.toNat = 2 ^ 128 - 1 → exec .incn s = .next (s.after { s.block with err := 1 } 0)) ∧
    (s.block.n.toNat ≠ 2 ^ 128 - 1 →
      ∃ n' : Index, n'.toNat = s.block.n.toNat + 1 ∧ exec .incn s = .next (s.after { s.block with n := n' } 0))

/-- R104: PACK then UNPACK leaves V = N, and MOVVN then leaves N unchanged, from any N. -/
def Obligations.PackUnpackRoundTrip : Prop :=
  ∀ s : State, s.cfg.Legal → s.block.err = 0 →
    ∃ t u w, exec .pack s = .next t ∧ exec .unpack t = .next u ∧ u.block.v = s.block.n.toNat ∧
      exec .movvn u = .next w ∧ w.block.n = s.block.n

/-- R105: after a successful UNPACK, V < 2^(8*WLEN). -/
def Obligations.UnpackedValueIsBounded : Prop :=
  ∀ s : State, s.block.err = 0 → s.block.wlen.toNat ≤ s.cfg.maxw →
    ∃ t, exec .unpack s = .next t ∧ t.block.err = 0 ∧ t.block.v < 2 ^ (8 * s.block.wlen.toNat)

/-- R106: UNPACK, MOVVN, PACK leaves W[0..L-1] as they were, clears the rest and sets WLEN to 16. -/
def Obligations.UnpackMovvnPackRestoresBytes : Prop :=
  ∀ s : State, s.cfg.Legal → s.block.err = 0 → s.block.wlen.toNat ≤ 16 →
    ∃ t, execAll [.unpack, .movvn, .pack] s = .next t ∧ t.block.wlen = 16 ∧
      ∀ i < s.cfg.maxw, t.block.w.getD i 0 = if i < s.block.wlen.toNat then s.block.w.getD i 0 else 0

/-- R53: after PACK, W_k reads what N_k reads; after UNPACK with WLEN = 16, V_k reads what W_k reads (k < 4). -/
def Obligations.MixedWidthViewsAgree : Prop :=
  ∀ (s : State) (k : Fin 4), s.cfg.Legal → s.block.err = 0 →
    (∃ t, exec .pack s = .next t ∧ readReg s.cfg t.block (.w (k.castLE (by decide))) = readReg s.cfg t.block (.n k)) ∧
    (s.block.wlen = 16 → ∃ t, exec .unpack s = .next t ∧
      readReg s.cfg t.block (.v (k.castLE (by decide))) = readReg s.cfg t.block (.w (k.castLE (by decide))))

/-! ### The mixed-radix converter -/

/-- R120: DIVSTEP leaves the exact quotient in V and the remainder in REM, or raises CONFIG; nothing else changes. -/
def Obligations.DivstepQuotientAndRemainder : Prop :=
  ∀ s : State, s.block.err = 0 →
    (s.block.radix.toNat < 2 → exec .divstep s = .next (s.after { s.block with err := 2 } 0)) ∧
    (2 ≤ s.block.radix.toNat → ∃ r : Word, r.toNat = s.block.v % s.block.radix.toNat ∧
      exec .divstep s = .next (s.after { s.block with v := s.block.v / s.block.radix.toNat, rem := r } 0))

/-- R121: CONVERT's checks in their order, then LEN digits, the cleared rest of D, the quotient and REM; nothing else
changes. -/
def Obligations.ConvertExtractsDigits : Prop :=
  ∀ s : State, s.block.err = 0 →
    if s.block.radix.toNat < 2 then exec .convert s = .next (s.after { s.block with err := 2 } 0)
    else if s.block.len.toNat = 0 then exec .convert s = .next (s.after { s.block with err := 2 } 0)
    else if s.block.len.toNat > s.cfg.maxd then exec .convert s = .next (s.after { s.block with err := 3 } 0)
    else ∃ d' : List Word, d'.length = s.cfg.maxd ∧
      (∀ j < s.block.len.toNat,
        (d'.getD j 0).toNat = s.block.v / s.block.radix.toNat ^ j % s.block.radix.toNat) ∧
      (∀ j, s.block.len.toNat ≤ j → d'.getD j 0 = 0) ∧
      exec .convert s = .next (s.after { s.block with
        d := d'
        v := s.block.v / s.block.radix.toNat ^ s.block.len.toNat
        rem := d'.getD (s.block.len.toNat - 1) 0 } 0)

/-- R122: CONVERT gives the V and REM of LEN successive DIVSTEPs, and D[j] is the REM the (j+1)-th of them leaves. -/
def Obligations.ConvertIsLenDivsteps : Prop :=
  ∀ s : State, s.block.err = 0 → 2 ≤ s.block.radix.toNat → 1 ≤ s.block.len.toNat →
    s.block.len.toNat ≤ s.cfg.maxd →
    ∃ (t : State) (f : Nat → State), exec .convert s = .next t ∧ f 0 = s ∧
      (∀ j < s.block.len.toNat, exec .divstep (f j) = .next (f (j + 1)) ∧
        t.block.d.getD j 0 = (f (j + 1)).block.rem) ∧
      t.block.v = (f s.block.len.toNat).block.v ∧ t.block.rem = (f s.block.len.toNat).block.rem

/-- R123: after a successful CONVERT the digits and the quotient give back the dividend, and every digit is below
RADIX. -/
def Obligations.ConvertReconstructsDividend : Prop :=
  ∀ s : State, s.block.err = 0 → 2 ≤ s.block.radix.toNat → 1 ≤ s.block.len.toNat →
    s.block.len.toNat ≤ s.cfg.maxd →
    ∃ t, exec .convert s = .next t ∧
      s.block.v = (∑ j ∈ Finset.range s.block.len.toNat, (t.block.d.getD j 0).toNat * s.block.radix.toNat ^ j) +
        t.block.v * s.block.radix.toNat ^ s.block.len.toNat ∧
      (∀ j < s.block.len.toNat, (t.block.d.getD j 0).toNat < s.block.radix.toNat) ∧
      t.block.v = s.block.v / s.block.radix.toNat ^ s.block.len.toNat

/-- R124: the digits depend on the dividend only through its value modulo RADIX^LEN. -/
def Obligations.DigitsDependOnlyOnLowPart : Prop :=
  ∀ s s' : State, s.block.err = 0 → s'.block.err = 0 → s'.cfg.maxd = s.cfg.maxd →
    s'.block.radix = s.block.radix → s'.block.len = s.block.len → 2 ≤ s.block.radix.toNat →
    1 ≤ s.block.len.toNat → s.block.len.toNat ≤ s.cfg.maxd →
    s'.block.v % s.block.radix.toNat ^ s.block.len.toNat = s.block.v % s.block.radix.toNat ^ s.block.len.toNat →
    ∃ t t', exec .convert s = .next t ∧ exec .convert s' = .next t' ∧ t'.block.d = t.block.d

/-- R125: successful DIVSTEPs and CONVERTs from equal V, RADIX and LEN leave equal D, V and REM, whatever else
differs. -/
def Obligations.ConverterIsDeterministic : Prop :=
  ∀ s s' : State, s.block.err = 0 → s'.block.err = 0 → s'.cfg.maxd = s.cfg.maxd → s'.block.v = s.block.v →
    s'.block.radix = s.block.radix → s'.block.len = s.block.len → 2 ≤ s.block.radix.toNat →
    (∃ t t', exec .divstep s = .next t ∧ exec .divstep s' = .next t' ∧ t'.block.v = t.block.v ∧
      t'.block.rem = t.block.rem) ∧
    (1 ≤ s.block.len.toNat → s.block.len.toNat ≤ s.cfg.maxd →
      ∃ t t', exec .convert s = .next t ∧ exec .convert s' = .next t' ∧ t'.block.d = t.block.d ∧
        t'.block.v = t.block.v ∧ t'.block.rem = t.block.rem)

/-! ### Control, errors and reset -/

/-- R140: NOP, a write of 0 to CMD, changes nothing, whether or not an error is pending; a word with OP = 0x00 and
RSV != 0 is Illegal, not NOP. -/
def Obligations.NopChangesNothing : Prop :=
  ∀ s : State, exec .nop s = .next (s.after s.block 0) ∧
    exec (.wr .word 0x008 0x00000000) s = .next (s.after s.block 0) ∧
    ∀ r : BitVec 24, r ≠ 0 → ∃ e, decodeCommand (r ++ 0#8) = .error e

/-- R141: CLRERR clears ERR and IGN and nothing else. -/
def Obligations.ClrerrClearsErrAndIgn : Prop :=
  ∀ s : State, exec .clrerr s = .next (s.after { s.block with err := 0, ign := false } 0)

/-- R181: SRST, like the reset input, sets every element to 0; ID and CFG are unaffected. -/
def Obligations.SoftResetZeroesEveryElement : Prop :=
  ∀ s : State, ∃ t, exec .srst s = .next t ∧
    t = s.after { n := 0, w := List.replicate s.cfg.maxw 0, wlen := 0, v := 0, radix := 0, len := 0, rem := 0,
                  d := List.replicate s.cfg.maxd 0, err := 0, ign := false } 0 ∧
    readReg t.cfg t.block .id = readReg s.cfg s.block .id ∧ readReg t.cfg t.block .cfg = readReg s.cfg s.block .cfg

/-- R143: an Illegal command word raises ILLEGAL, or sets IGN when an error is pending, and changes nothing else. -/
def Obligations.IllegalWordRaisesIllegal : Prop :=
  ∀ (c : CmdWord) (s : State),
    (c.extractLsb' 8 24 ≠ 0 ∨ (0x08 ≤ (c.extractLsb' 0 8).toNat ∧ (c.extractLsb' 0 8).toNat ≤ 0xFE)) →
    exec (.wr .word 0x008 c) s =
      .next (s.after (if s.block.err = 0 then { s.block with err := 4 } else { s.block with ign := true }) 0)

/-- R158: a command that raises leaves every element but ERR as it was, and one that does not raise leaves ERR 0; the
code is one of R151's. -/
def Obligations.ErrorsArePrecise : Prop :=
  ∀ (i : Instr) (s : State), i ∈ [Instr.pack, .unpack, .movvn, .incn, .divstep, .convert] → s.block.err = 0 →
    ∃ t, exec i s = .next t ∧
      (t.block.err = 0 ∨
        (t.block = { s.block with err := t.block.err } ∧ t.block.err.toNat ∈ [1, 2, 3] ∧ i ≠ .pack))

/-- R159: with an error pending, every command word other than NOP, CLRERR and SRST is dropped and IGN set. -/
def Obligations.PendingErrorDropsCommands : Prop :=
  ∀ s : State, s.block.err ≠ 0 →
    (∀ c : CmdWord, c ≠ 0x00 → c ≠ 0x07 → c ≠ 0xFF →
      exec (.wr .word 0x008 c) s = .next (s.after { s.block with ign := true } 0)) ∧
    ∀ i ∈ [Instr.pack, .unpack, .movvn, .incn, .divstep, .convert],
      exec i s = .next (s.after { s.block with ign := true } 0)

/-- R159, R161: ERR keeps the first error's code, and IGN stays set, through every step but CLRERR, SRST and the reset
input. -/
def Obligations.ErrorIsSticky : Prop :=
  ∀ s t : State, step s = .next t → s.block.err ≠ 0 →
    (t.block.err = s.block.err ∧ (s.block.ign = true → t.block.ign = true)) ∨
    s.program[s.pc]? = some .assertReset ∨ s.program[s.pc]? = some (.txn 0x600800000007) ∨
    s.program[s.pc]? = some (.txn 0x6008000000FF)

/-- R33: only a legal command write and the hardware reset change ERR or IGN. -/
def Obligations.OnlyDispatchAndResetChangeFlags : Prop :=
  ∀ s t : State, step s = .next t → (t.block.err ≠ s.block.err ∨ t.block.ign ≠ s.block.ign) →
    s.program[s.pc]? = some .assertReset ∨
    ∃ c : CmdWord, s.program[s.pc]? = some (.txn (0x600800000000 ||| c.setWidth 47))

/-- R25, R28, R29: the host cannot write V, REM or D: only UNPACK, DIVSTEP, CONVERT and a reset change V, and only
DIVSTEP, CONVERT and a reset change REM, and only CONVERT and a reset change D. -/
def Obligations.OnlyCommandsChangeResults : Prop :=
  ∀ s t : State, step s = .next t →
    (t.block.v ≠ s.block.v → s.program[s.pc]? = some .assertReset ∨
      s.program[s.pc]? ∈ [some (.txn 0x600800000002), some (.txn 0x600800000003), some (.txn 0x600800000004),
        some (.txn 0x6008000000FF)]) ∧
    (t.block.rem ≠ s.block.rem → s.program[s.pc]? = some .assertReset ∨
      s.program[s.pc]? ∈ [some (.txn 0x600800000003), some (.txn 0x600800000004), some (.txn 0x6008000000FF)]) ∧
    (t.block.d ≠ s.block.d → s.program[s.pc]? = some .assertReset ∨
      s.program[s.pc]? ∈ [some (.txn 0x600800000004), some (.txn 0x6008000000FF)])

/-- R38: the values of every element after reset, here at the reference parameters. -/
def Obligations.ResetValues : Prop :=
  State.reset.block.n = 0 ∧ (∀ i < State.reset.cfg.maxw, State.reset.block.w[i]? = some 0) ∧
  State.reset.block.wlen = 0 ∧ State.reset.block.v = 0 ∧ State.reset.block.radix = 0 ∧ State.reset.block.len = 0 ∧
  State.reset.block.rem = 0 ∧ (∀ j < State.reset.cfg.maxd, State.reset.block.d[j]? = some 0) ∧
  State.reset.block.err = 0 ∧ State.reset.block.ign = false

/-- R184: what the commands give from the reset values alone. -/
def Obligations.CommandsFromResetValues : Prop :=
  ∀ c : Config.Params, c.Legal →
    (∃ t, exec .unpack (State.resetWith c) = .next t ∧ t.block.v = 0 ∧ t.block.err = 0) ∧
    (∃ t, exec .divstep (State.resetWith c) = .next t ∧ t.block.err = 2) ∧
    (∃ t, exec .convert (State.resetWith c) = .next t ∧ t.block.err = 2) ∧
    (∃ t, exec .pack (State.resetWith c) = .next t ∧ t.block.err = 0 ∧ t.block.w = List.replicate c.maxw 0)

/-! ### Invariants and pseudo-instructions -/

/-- The reset state of every instance with legal parameters meets the invariant (R6, R38). The invariant's clauses on
the host's index and on the reset input are about the model's own fields (log entries 3, 5, 6). -/
def Obligations.InvHoldsAtReset : Prop :=
  State.reset.Inv ∧ ∀ c : Config.Params, c.Legal → (State.resetWith c).Inv

/-- R20, R25, R33, R151, R159: from every state that meets the invariant, a step gives a state that meets it: the
buffers keep their sizes, V stays below 2^(8*MAXW), ERR never holds a reserved code, IGN implies a pending error. The
clauses on the host's index and on the reset input are about the model's own fields (log entries 3, 5). -/
def Obligations.StepKeepsInv : Prop :=
  ∀ s t : State, s.Inv → step s = .next t → t.Inv

/-- R80: the transactions of `WR128 N, v` leave N = v and change nothing else of the block. -/
def Obligations.Wr128WritesAllOfN : Prop :=
  ∀ (v : Index) (s : State),
    ∃ t, execAll ((expandPseudo (.wr128N v)).map asmInstr) s = .next t ∧ t.block = { s.block with n := v }
end

