-- ==== Sys2Proof/Laws/Encoding.lean ====
section
/-! SUPPORT. The fields of the two encoded forms, and what the decoder makes of a transaction or a command word given
by its fields. -/

namespace Sys2Proof

/-! ### Host transactions (R71) -/

/-- The fields of a transaction built from its fields. -/
theorem txnWord_fields (write : BitVec 1) (size : Size) (a : Offset) (x : Word) :
    writeField (txnWord write size a x) = write ∧ sizeField (txnWord write size a x) = sizeBits size ∧
    addrField (txnWord write size a x) = a ∧ wdataField (txnWord write size a x) = x := by
  refine ⟨?_, ?_, ?_, ?_⟩ <;> apply BitVec.eq_of_getLsbD_eq <;> intro i hi <;>
    simp [writeField, sizeField, addrField, wdataField, txnWord, BitVec.getLsbD_extractLsb'] <;> grind

/-- A transaction is its four fields. -/
theorem fields_append (t : TxnWord) : writeField t ++ sizeField t ++ addrField t ++ wdataField t = t := by
  apply BitVec.eq_of_getLsbD_eq
  intro i hi
  simp [writeField, sizeField, addrField, wdataField]
  grind

@[simp] theorem sizeOfField_sizeBits (size : Size) : sizeOfField (sizeBits size) = size := by cases size <;> rfl

@[simp] theorem sizeBits_sizeOfField (f : BitVec 2) : sizeBits (sizeOfField f) = f := by
  revert f
  decide

/-- The WRITE bit is 0 or 1. -/
theorem writeField_cases (t : TxnWord) : writeField t = 0 ∨ writeField t = 1 := by
  have : ∀ b : BitVec 1, b = 0 ∨ b = 1 := by decide
  exact this _

/-- What the decoder makes of a transaction given by its fields (R90, R91). -/
theorem decodeTxn_txnWord (write : BitVec 1) (size : Size) (a : Offset) (x : Word) :
    decodeTxn (txnWord write size a x) = if write = 0 then .rd size a else .wr size a x := by
  obtain ⟨hw, hs, ha, hx⟩ := txnWord_fields write size a x
  unfold decodeTxn
  rw [hw, hs, ha, hx, sizeOfField_sizeBits]

/-- The write of a word to CMD decodes to a write of it to CMD. -/
@[simp] theorem decodeTxn_cmdTxn (c : CmdWord) : decodeTxn (cmdTxn c) = .wr .word cmdOffset c :=
  decodeTxn_txnWord 1 .word cmdOffset c

/-- A transaction that decodes to a write is the encoded write. -/
theorem eq_encodeWr_of_decodeTxn {t : TxnWord} {size : Size} {a : Offset} {x : Word}
    (h : decodeTxn t = .wr size a x) : t = encodeWr size a x := by
  unfold decodeTxn at h
  split at h
  · cases h
  · next hw =>
    injection h with hs ha hx
    subst hs ha hx
    have h1 : writeField t = 1 := (writeField_cases t).resolve_left hw
    rw [encodeWr, txnWord, sizeBits_sizeOfField, ← h1, fields_append]

/-! ### Command words (R73, R74) -/

/-- A command word is RSV and OP. -/
theorem command_fields_append (c : CmdWord) : rsvField c ++ opField c = c := by
  apply BitVec.eq_of_getLsbD_eq
  intro i hi
  simp [rsvField, opField]
  grind

theorem rsvField_append (r : BitVec 24) (o : BitVec 8) : rsvField (r ++ o) = r := by
  apply BitVec.eq_of_getLsbD_eq
  intro i hi
  simp only [rsvField, BitVec.getLsbD_extractLsb', BitVec.getLsbD_append]
  simp [hi]

theorem opField_append (r : BitVec 24) (o : BitVec 8) : opField (r ++ o) = o := by
  apply BitVec.eq_of_getLsbD_eq
  intro i hi
  simp only [opField, BitVec.getLsbD_extractLsb', BitVec.getLsbD_append]
  simp [hi]

theorem commandOfOp_eq_some : ∀ (op : BitVec 8) (k : Command), commandOfOp op = some k ↔ op = opOf k := by
  intro op k
  revert op
  cases k <;> decide

theorem commandOfOp_eq_none : ∀ op : BitVec 8, commandOfOp op = none ↔ 0x08 ≤ op.toNat ∧ op.toNat ≤ 0xFE := by
  decide

/-- A word decodes to a command exactly when RSV is 0 and OP is the command's (R76). -/
theorem decodeCommand_eq_ok (c : CmdWord) (k : Command) :
    decodeCommand c = .ok k ↔ rsvField c = 0 ∧ opField c = opOf k := by
  unfold decodeCommand
  by_cases hr : rsvField c = 0
  · rw [if_pos hr, ← commandOfOp_eq_some]
    cases commandOfOp (opField c) <;> simp [hr]
  · rw [if_neg hr]
    constructor
    · intro h
      cases h
    · intro h
      exact absurd h.1 hr

end Sys2Proof
end

