-- ==== Sys2Proof/Laws/State.lean ====
section
/-! SUPPORT. The small lemmas of the state records: one lemma per field per update, each true by definition. -/

namespace Sys2Proof.Machine

@[simp] theorem State.setBlock_cfg (s : State) (b : Block) : (s.setBlock b).cfg = s.cfg := rfl
@[simp] theorem State.setBlock_block (s : State) (b : Block) : (s.setBlock b).block = b := rfl
@[simp] theorem State.setBlock_resetIn (s : State) (b : Block) : (s.setBlock b).resetIn = s.resetIn := rfl
@[simp] theorem State.setBlock_program (s : State) (b : Block) : (s.setBlock b).program = s.program := rfl
@[simp] theorem State.setBlock_pc (s : State) (b : Block) : (s.setBlock b).pc = s.pc := rfl
@[simp] theorem State.setBlock_responses (s : State) (b : Block) : (s.setBlock b).responses = s.responses := rfl

@[simp] theorem State.respond_cfg (s : State) (r : Response) : (s.respond r).cfg = s.cfg := rfl
@[simp] theorem State.respond_block (s : State) (r : Response) : (s.respond r).block = s.block := rfl
@[simp] theorem State.respond_resetIn (s : State) (r : Response) : (s.respond r).resetIn = s.resetIn := rfl
@[simp] theorem State.respond_program (s : State) (r : Response) : (s.respond r).program = s.program := rfl
@[simp] theorem State.respond_pc (s : State) (r : Response) : (s.respond r).pc = s.pc := rfl
@[simp] theorem State.respond_responses (s : State) (r : Response) : (s.respond r).responses = s.responses ++ [r] := rfl

@[simp] theorem State.after_cfg (s : State) (b : Block) (x : Word) : (s.after b x).cfg = s.cfg := rfl
@[simp] theorem State.after_block (s : State) (b : Block) (x : Word) : (s.after b x).block = b := rfl
@[simp] theorem State.after_resetIn (s : State) (b : Block) (x : Word) : (s.after b x).resetIn = s.resetIn := rfl
@[simp] theorem State.after_program (s : State) (b : Block) (x : Word) : (s.after b x).program = s.program := rfl
@[simp] theorem State.after_pc (s : State) (b : Block) (x : Word) : (s.after b x).pc = s.pc := rfl
@[simp] theorem State.after_responses (s : State) (b : Block) (x : Word) : (s.after b x).responses = s.responses ++ [{ err := false, rdata := x }] := rfl

@[simp] theorem State.advance_cfg (s : State) : (advance s).cfg = s.cfg := rfl
@[simp] theorem State.advance_block (s : State) : (advance s).block = s.block := rfl
@[simp] theorem State.advance_resetIn (s : State) : (advance s).resetIn = s.resetIn := rfl
@[simp] theorem State.advance_program (s : State) : (advance s).program = s.program := rfl
@[simp] theorem State.advance_pc (s : State) : (advance s).pc = s.pc + 1 := rfl
@[simp] theorem State.advance_responses (s : State) : (advance s).responses = s.responses := rfl

@[simp] theorem State.assertResetInput_cfg (s : State) : (assertResetInput s).cfg = s.cfg := rfl
@[simp] theorem State.assertResetInput_block (s : State) : (assertResetInput s).block = resetBlock s.cfg := rfl
@[simp] theorem State.assertResetInput_resetIn (s : State) : (assertResetInput s).resetIn = true := rfl
@[simp] theorem State.assertResetInput_program (s : State) : (assertResetInput s).program = s.program := rfl
@[simp] theorem State.assertResetInput_pc (s : State) : (assertResetInput s).pc = s.pc := rfl
@[simp] theorem State.assertResetInput_responses (s : State) : (assertResetInput s).responses = s.responses := rfl

@[simp] theorem State.releaseResetInput_cfg (s : State) : (releaseResetInput s).cfg = s.cfg := rfl
@[simp] theorem State.releaseResetInput_block (s : State) : (releaseResetInput s).block = s.block := rfl
@[simp] theorem State.releaseResetInput_resetIn (s : State) : (releaseResetInput s).resetIn = false := rfl
@[simp] theorem State.releaseResetInput_program (s : State) : (releaseResetInput s).program = s.program := rfl
@[simp] theorem State.releaseResetInput_pc (s : State) : (releaseResetInput s).pc = s.pc := rfl
@[simp] theorem State.releaseResetInput_responses (s : State) : (releaseResetInput s).responses = s.responses := rfl

@[simp] theorem State.withFetchWord_cfg (s : State) (nbits w : Nat) : (s.withFetchWord nbits w).cfg = s.cfg := rfl
@[simp] theorem State.withFetchWord_block (s : State) (nbits w : Nat) : (s.withFetchWord nbits w).block = s.block := rfl
@[simp] theorem State.withFetchWord_resetIn (s : State) (nbits w : Nat) : (s.withFetchWord nbits w).resetIn = false := rfl
@[simp] theorem State.withFetchWord_program (s : State) (nbits w : Nat) : (s.withFetchWord nbits w).program = placeNext s (.txn (portWord nbits w)) := rfl
@[simp] theorem State.withFetchWord_pc (s : State) (nbits w : Nat) : (s.withFetchWord nbits w).pc = min s.pc s.program.length := rfl
@[simp] theorem State.withFetchWord_responses (s : State) (nbits w : Nat) : (s.withFetchWord nbits w).responses = s.responses := rfl

@[simp] theorem Block.setErr_n (b : Block) (e : ErrCode) : (setErr e b).n = b.n := rfl
@[simp] theorem Block.setErr_w (b : Block) (e : ErrCode) : (setErr e b).w = b.w := rfl
@[simp] theorem Block.setErr_wlen (b : Block) (e : ErrCode) : (setErr e b).wlen = b.wlen := rfl
@[simp] theorem Block.setErr_v (b : Block) (e : ErrCode) : (setErr e b).v = b.v := rfl
@[simp] theorem Block.setErr_radix (b : Block) (e : ErrCode) : (setErr e b).radix = b.radix := rfl
@[simp] theorem Block.setErr_len (b : Block) (e : ErrCode) : (setErr e b).len = b.len := rfl
@[simp] theorem Block.setErr_rem (b : Block) (e : ErrCode) : (setErr e b).rem = b.rem := rfl
@[simp] theorem Block.setErr_d (b : Block) (e : ErrCode) : (setErr e b).d = b.d := rfl
@[simp] theorem Block.setErr_err (b : Block) (e : ErrCode) : (setErr e b).err = errCode e := rfl
@[simp] theorem Block.setErr_ign (b : Block) (e : ErrCode) : (setErr e b).ign = b.ign := rfl

@[simp] theorem Block.takeError_n (b : Block) (e : ErrCode) : (takeError e b).n = b.n := rfl
@[simp] theorem Block.takeError_w (b : Block) (e : ErrCode) : (takeError e b).w = b.w := rfl
@[simp] theorem Block.takeError_wlen (b : Block) (e : ErrCode) : (takeError e b).wlen = b.wlen := rfl
@[simp] theorem Block.takeError_v (b : Block) (e : ErrCode) : (takeError e b).v = b.v := rfl
@[simp] theorem Block.takeError_radix (b : Block) (e : ErrCode) : (takeError e b).radix = b.radix := rfl
@[simp] theorem Block.takeError_len (b : Block) (e : ErrCode) : (takeError e b).len = b.len := rfl
@[simp] theorem Block.takeError_rem (b : Block) (e : ErrCode) : (takeError e b).rem = b.rem := rfl
@[simp] theorem Block.takeError_d (b : Block) (e : ErrCode) : (takeError e b).d = b.d := rfl
@[simp] theorem Block.takeError_err (b : Block) (e : ErrCode) : (takeError e b).err = errCode e := rfl
@[simp] theorem Block.takeError_ign (b : Block) (e : ErrCode) : (takeError e b).ign = b.ign := rfl

@[simp] theorem Block.setIgn_n (b : Block) : (setIgn b).n = b.n := rfl
@[simp] theorem Block.setIgn_w (b : Block) : (setIgn b).w = b.w := rfl
@[simp] theorem Block.setIgn_wlen (b : Block) : (setIgn b).wlen = b.wlen := rfl
@[simp] theorem Block.setIgn_v (b : Block) : (setIgn b).v = b.v := rfl
@[simp] theorem Block.setIgn_radix (b : Block) : (setIgn b).radix = b.radix := rfl
@[simp] theorem Block.setIgn_len (b : Block) : (setIgn b).len = b.len := rfl
@[simp] theorem Block.setIgn_rem (b : Block) : (setIgn b).rem = b.rem := rfl
@[simp] theorem Block.setIgn_d (b : Block) : (setIgn b).d = b.d := rfl
@[simp] theorem Block.setIgn_err (b : Block) : (setIgn b).err = b.err := rfl
@[simp] theorem Block.setIgn_ign (b : Block) : (setIgn b).ign = true := rfl

@[simp] theorem Block.clearFlags_n (b : Block) : (clearFlags b).n = b.n := rfl
@[simp] theorem Block.clearFlags_w (b : Block) : (clearFlags b).w = b.w := rfl
@[simp] theorem Block.clearFlags_wlen (b : Block) : (clearFlags b).wlen = b.wlen := rfl
@[simp] theorem Block.clearFlags_v (b : Block) : (clearFlags b).v = b.v := rfl
@[simp] theorem Block.clearFlags_radix (b : Block) : (clearFlags b).radix = b.radix := rfl
@[simp] theorem Block.clearFlags_len (b : Block) : (clearFlags b).len = b.len := rfl
@[simp] theorem Block.clearFlags_rem (b : Block) : (clearFlags b).rem = b.rem := rfl
@[simp] theorem Block.clearFlags_d (b : Block) : (clearFlags b).d = b.d := rfl
@[simp] theorem Block.clearFlags_err (b : Block) : (clearFlags b).err = 0 := rfl
@[simp] theorem Block.clearFlags_ign (b : Block) : (clearFlags b).ign = false := rfl

@[simp] theorem Block.returnFromError_n (b : Block) : (returnFromError b).n = b.n := rfl
@[simp] theorem Block.returnFromError_w (b : Block) : (returnFromError b).w = b.w := rfl
@[simp] theorem Block.returnFromError_wlen (b : Block) : (returnFromError b).wlen = b.wlen := rfl
@[simp] theorem Block.returnFromError_v (b : Block) : (returnFromError b).v = b.v := rfl
@[simp] theorem Block.returnFromError_radix (b : Block) : (returnFromError b).radix = b.radix := rfl
@[simp] theorem Block.returnFromError_len (b : Block) : (returnFromError b).len = b.len := rfl
@[simp] theorem Block.returnFromError_rem (b : Block) : (returnFromError b).rem = b.rem := rfl
@[simp] theorem Block.returnFromError_d (b : Block) : (returnFromError b).d = b.d := rfl
@[simp] theorem Block.returnFromError_err (b : Block) : (returnFromError b).err = 0 := rfl
@[simp] theorem Block.returnFromError_ign (b : Block) : (returnFromError b).ign = false := rfl

@[simp] theorem Block.writeN_w (b : Block) (k : Nat) (x : Word) : (writeN k x b).w = b.w := rfl
@[simp] theorem Block.writeN_wlen (b : Block) (k : Nat) (x : Word) : (writeN k x b).wlen = b.wlen := rfl
@[simp] theorem Block.writeN_v (b : Block) (k : Nat) (x : Word) : (writeN k x b).v = b.v := rfl
@[simp] theorem Block.writeN_radix (b : Block) (k : Nat) (x : Word) : (writeN k x b).radix = b.radix := rfl
@[simp] theorem Block.writeN_len (b : Block) (k : Nat) (x : Word) : (writeN k x b).len = b.len := rfl
@[simp] theorem Block.writeN_rem (b : Block) (k : Nat) (x : Word) : (writeN k x b).rem = b.rem := rfl
@[simp] theorem Block.writeN_d (b : Block) (k : Nat) (x : Word) : (writeN k x b).d = b.d := rfl
@[simp] theorem Block.writeN_err (b : Block) (k : Nat) (x : Word) : (writeN k x b).err = b.err := rfl
@[simp] theorem Block.writeN_ign (b : Block) (k : Nat) (x : Word) : (writeN k x b).ign = b.ign := rfl

@[simp] theorem resetBlock_n (c : Config.Params) : (resetBlock c).n = 0 := rfl
@[simp] theorem resetBlock_w (c : Config.Params) : (resetBlock c).w = List.replicate c.maxw 0 := rfl
@[simp] theorem resetBlock_wlen (c : Config.Params) : (resetBlock c).wlen = 0 := rfl
@[simp] theorem resetBlock_v (c : Config.Params) : (resetBlock c).v = 0 := rfl
@[simp] theorem resetBlock_radix (c : Config.Params) : (resetBlock c).radix = 0 := rfl
@[simp] theorem resetBlock_len (c : Config.Params) : (resetBlock c).len = 0 := rfl
@[simp] theorem resetBlock_rem (c : Config.Params) : (resetBlock c).rem = 0 := rfl
@[simp] theorem resetBlock_d (c : Config.Params) : (resetBlock c).d = List.replicate c.maxd 0 := rfl
@[simp] theorem resetBlock_err (c : Config.Params) : (resetBlock c).err = 0 := rfl
@[simp] theorem resetBlock_ign (c : Config.Params) : (resetBlock c).ign = false := rfl

/-- `Reset()` (R181) gives the block that State.reset starts from (R38). -/
theorem resetBlock_eq_afterReset (c : Config.Params) : resetBlock c = Block.afterReset c := rfl

@[simp] theorem State.reset_cfg : State.reset.cfg = Config.reference := rfl
@[simp] theorem State.reset_block : State.reset.block = resetBlock Config.reference := rfl
@[simp] theorem State.reset_resetIn : State.reset.resetIn = false := rfl
@[simp] theorem State.reset_program : State.reset.program = [] := rfl
@[simp] theorem State.reset_pc : State.reset.pc = 0 := rfl
@[simp] theorem State.reset_responses : State.reset.responses = [] := rfl

end Sys2Proof.Machine
end

