-- ==== Sys2Proof/Laws/Ops.lean ====
section
/-! SUPPORT. What each shared operation can do, said once: completion, the gate of Dispatch, errors, the byte and word
views, the digit loop. -/

namespace Sys2Proof.Machine

/-! ### Completing a transaction -/

@[simp] theorem complete_eq (s : State) (x : Word) : complete s x = .next (s.after s.block x) := rfl

@[simp] theorem completeWrite_eq (s : State) (b : Block) : completeWrite s b = .next (s.after b 0) := rfl

theorem takeBusError_eq (s : State) :
    takeBusError s = .next { s with responses := s.responses ++ [{ err := true, rdata := 0 }] } := rfl

@[simp] theorem State.after_after (s : State) (b b' : Block) (x y : Word) :
    ((s.after b x).after b' y).block = b' := rfl

/-! ### Errors and the gate of Dispatch -/

/-- No error code is 0 or reserved (R151). -/
theorem errCode_bounds (e : ErrCode) : errCode e ≠ 0 ∧ (errCode e).toNat ≤ 4 := by cases e <;> decide

@[simp] theorem errorPending_eq_false (b : Block) : errorPending b = false ↔ b.err = 0 := by
  simp [errorPending]

@[simp] theorem errorPending_eq_true (b : Block) : errorPending b = true ↔ b.err ≠ 0 := by
  simp [errorPending]

/-- With an error pending, a gated command only sets IGN (R159). -/
theorem gated_of_pending {c : Config.Params} {body : Body} {b : Block} (h : b.err ≠ 0) :
    gated c body b = { b with ign := true } := by
  rw [gated, if_pos ((errorPending_eq_true b).2 h)]
  rfl

/-- With no error pending, a gated command that does not raise does what its body says. -/
theorem gated_of_ok {c : Config.Params} {body : Body} {b b' : Block} (h : b.err = 0) (hb : body c b = .ok b') :
    gated c body b = b' := by
  have h' : errorPending b = false := (errorPending_eq_false b).2 h
  simp [gated, h', hb]

/-- With no error pending, a gated command that raises records the code and nothing else (R158). -/
theorem gated_of_error {c : Config.Params} {body : Body} {b : Block} {e : ErrCode} (h : b.err = 0)
    (hb : body c b = .error e) : gated c body b = { b with err := errCode e } := by
  have h' : errorPending b = false := (errorPending_eq_false b).2 h
  simp [gated, h', hb, takeError, setErr]

/-- Everything a gated command can do: drop, run to its end, or record an error (R157). -/
theorem gated_cases (c : Config.Params) (body : Body) (b : Block) :
    (b.err ≠ 0 ∧ gated c body b = { b with ign := true }) ∨
    (b.err = 0 ∧ ∃ b', body c b = .ok b' ∧ gated c body b = b') ∨
    (b.err = 0 ∧ ∃ e, body c b = .error e ∧ gated c body b = { b with err := errCode e }) := by
  by_cases h : b.err = 0
  · cases hb : body c b with
    | ok b' => exact .inr (.inl ⟨h, b', rfl, gated_of_ok h hb⟩)
    | error e => exact .inr (.inr ⟨h, e, rfl, gated_of_error h hb⟩)
  · exact .inl ⟨h, gated_of_pending h⟩

/-! ### The command bodies -/

theorem unpackBody_ok {c : Config.Params} {b : Block} (h : b.wlen.toNat ≤ c.maxw) :
    unpackBody c b = .ok { b with v := leSum (readByte c b) b.wlen.toNat } := by
  simp [unpackBody, Nat.not_lt.2 h]

theorem unpackBody_error {c : Config.Params} {b : Block} (h : c.maxw < b.wlen.toNat) :
    unpackBody c b = .error .length := by
  simp [unpackBody, h]

theorem movvnBody_ok {c : Config.Params} {b : Block} (h : b.v < 2 ^ 128) :
    movvnBody c b = .ok { b with n := BitVec.ofNat 128 b.v } := by
  simp only [movvnBody, ge_iff_le, Nat.not_le.2 h, if_false]

theorem movvnBody_error {c : Config.Params} {b : Block} (h : 2 ^ 128 ≤ b.v) :
    movvnBody c b = .error .range := by
  simp only [movvnBody, ge_iff_le, h, if_true]

theorem incnBody_ok {c : Config.Params} {b : Block} (h : b.n.toNat ≠ 2 ^ 128 - 1) :
    incnBody c b = .ok { b with n := BitVec.ofNat 128 (b.n.toNat + 1) } := by
  simp only [incnBody, h, if_false]

theorem incnBody_error {c : Config.Params} {b : Block} (h : b.n.toNat = 2 ^ 128 - 1) :
    incnBody c b = .error .range := by
  simp only [incnBody, h, if_true]

theorem divstepBody_ok {c : Config.Params} {b : Block} (h : 2 ≤ b.radix.toNat) :
    divstepBody c b =
      .ok { b with rem := BitVec.ofNat 32 (b.v % b.radix.toNat), v := b.v / b.radix.toNat } := by
  simp [divstepBody, Nat.not_lt.2 h]

theorem divstepBody_error {c : Config.Params} {b : Block} (h : b.radix.toNat < 2) :
    divstepBody c b = .error .config := by
  simp [divstepBody, h]

/-- Everything CONVERT's body can do, its checks in the order of R121. -/
theorem convertBody_cases (c : Config.Params) (b : Block) :
    (b.radix.toNat < 2 ∧ convertBody c b = .error .config) ∨
    (2 ≤ b.radix.toNat ∧ b.len.toNat = 0 ∧ convertBody c b = .error .config) ∨
    (2 ≤ b.radix.toNat ∧ c.maxd < b.len.toNat ∧ convertBody c b = .error .length) ∨
    (2 ≤ b.radix.toNat ∧ 1 ≤ b.len.toNat ∧ b.len.toNat ≤ c.maxd ∧
      convertBody c b = .ok { b with
        d := digitBuffer c b
        v := quotient b.radix.toNat b.len.toNat b.v
        rem := (digitBuffer c b).getD (b.len.toNat - 1) 0 }) := by
  unfold convertBody
  by_cases h1 : b.radix.toNat < 2
  · exact .inl ⟨h1, if_pos h1⟩
  · by_cases h2 : b.len.toNat = 0
    · exact .inr (.inl ⟨by omega, h2, by rw [if_neg h1, if_pos h2]⟩)
    · by_cases h3 : b.len.toNat > c.maxd
      · exact .inr (.inr (.inl ⟨by omega, h3, by rw [if_neg h1, if_neg h2, if_pos h3]⟩))
      · exact .inr (.inr (.inr ⟨by omega, by omega, by omega, by rw [if_neg h1, if_neg h2, if_neg h3]⟩))

/-! ### Bytes and words -/

@[simp] theorem packBytes_length (c : Config.Params) (n : Index) : (packBytes c n).length = c.maxw := by
  simp [packBytes]

theorem packBytes_getD (c : Config.Params) (n : Index) {i : Nat} (h : i < c.maxw) :
    (packBytes c n).getD i 0 = if i < 16 then leByte n i else 0 := by
  simp [packBytes, h]

theorem leByte_toNat (n : Index) (i : Nat) : (leByte n i).toNat = n.toNat / 2 ^ (8 * i) % 2 ^ 8 := by
  simp [leByte, BitVec.extractLsb'_toNat, Nat.shiftRight_eq_div_pow]

theorem leSum_zero (w : Nat → Byte) : leSum w 0 = 0 := rfl

theorem leSum_succ (w : Nat → Byte) (k : Nat) : leSum w (k + 1) = leSum w k + (w k).toNat * 2 ^ (8 * k) := by
  simp [leSum, List.range_succ, Nat.shiftLeft_eq]

/-- The sum of `count` bytes is below `2^(8*count)`. -/
theorem leSum_lt (w : Nat → Byte) (count : Nat) : leSum w count < 2 ^ (8 * count) := by
  induction count with
  | zero => simp [leSum_zero]
  | succ k ih =>
    have hw : (w k).toNat + 1 ≤ 2 ^ 8 := (w k).isLt
    have hm := Nat.mul_le_mul_right (2 ^ (8 * k)) hw
    rw [leSum_succ, show 8 * (k + 1) = 8 + 8 * k by ring, pow_add]
    rw [Nat.add_mul] at hm
    omega

/-- The sum depends only on the bytes it reads. -/
theorem leSum_congr {w w' : Nat → Byte} {count : Nat} (h : ∀ i < count, w i = w' i) :
    leSum w count = leSum w' count := by
  induction count with
  | zero => rfl
  | succ k ih => rw [leSum_succ, leSum_succ, ih fun i hi => h i (by omega), h k (by omega)]

/-- The sum of the first bytes of `n` is the low part of `n`. -/
theorem leSum_leByte (n : Index) (count : Nat) : leSum (leByte n) count = n.toNat % 2 ^ (8 * count) := by
  induction count with
  | zero => simp [leSum_zero, Nat.mod_one]
  | succ k ih =>
    rw [leSum_succ, ih, leByte_toNat, show 8 * (k + 1) = 8 * k + 8 by ring, pow_add, Nat.mod_mul,
      Nat.mul_comm (2 ^ (8 * k))]

/-- V_k as R41 writes it. -/
theorem readV_eq (b : Block) (k : Nat) : readV b k = BitVec.ofNat 32 (b.v / 2 ^ (32 * k) % 2 ^ 32) := by
  rw [readV, Nat.shiftRight_eq_div_pow]
  apply BitVec.eq_of_toNat_eq
  simp

@[simp] theorem writeByte_w_length (c : Config.Params) (i : Nat) (x : Byte) (b : Block) :
    (writeByte c i x b).w.length = b.w.length := by
  unfold writeByte; split <;> simp

/-- A byte write changes nothing but W. -/
theorem writeByte_eq (c : Config.Params) (i : Nat) (x : Byte) (b : Block) :
    writeByte c i x b = { b with w := (writeByte c i x b).w } := by
  unfold writeByte; split <;> rfl

/-- Reading the byte just written, where it exists. -/
theorem readByte_writeByte_same {c : Config.Params} {b : Block} {i : Nat} (x : Byte) (hi : i < c.maxw)
    (hl : i < b.w.length) : readByte c (writeByte c i x b) i = x := by
  simp [readByte, writeByte, hi, hl]

/-- A byte write leaves every other byte alone. -/
theorem readByte_writeByte_ne {c : Config.Params} {b : Block} {i j : Nat} (x : Byte) (h : j ≠ i) :
    readByte c (writeByte c i x b) j = readByte c b j := by
  unfold readByte writeByte
  split
  · split
    · simp [List.getElem?_set_ne (Ne.symm h)]
    · rfl
  · rfl

/-- A write beyond MAXW is ignored (R40). -/
theorem writeByte_beyond {c : Config.Params} {i : Nat} (x : Byte) (b : Block) (h : c.maxw ≤ i) :
    writeByte c i x b = b := by
  simp [writeByte, Nat.not_lt.2 h]

/-- A read beyond MAXW returns 0 (R40). -/
theorem readByte_beyond {c : Config.Params} (b : Block) {i : Nat} (h : c.maxw ≤ i) : readByte c b i = 0 := by
  simp [readByte, Nat.not_lt.2 h]

@[simp] theorem writeW_w_length (c : Config.Params) (k : Nat) (x : Word) (b : Block) :
    (writeW c k x b).w.length = b.w.length := by
  simp [writeW]

/-- A W window write changes nothing but W. -/
theorem writeW_eq (c : Config.Params) (k : Nat) (x : Word) (b : Block) :
    writeW c k x b = { b with w := (writeW c k x b).w } := by
  unfold writeW
  rw [writeByte_eq c (4 * k + 3), writeByte_eq c (4 * k + 2), writeByte_eq c (4 * k + 1), writeByte_eq c (4 * k)]

/-- What each byte reads after a W window write (R40). -/
theorem readByte_writeW (c : Config.Params) (k : Nat) (x : Word) (b : Block) (i : Nat) (hl : b.w.length = c.maxw) :
    readByte c (writeW c k x b) i =
      if 4 * k ≤ i ∧ i < 4 * k + 4 ∧ i < c.maxw then lane x (i - 4 * k) else readByte c b i := by
  by_cases hi : i < c.maxw
  · by_cases h : 4 * k ≤ i ∧ i < 4 * k + 4
    · rw [if_pos ⟨h.1, h.2, hi⟩]
      unfold writeW
      obtain h | h | h | h : i = 4 * k ∨ i = 4 * k + 1 ∨ i = 4 * k + 2 ∨ i = 4 * k + 3 := by omega
      all_goals subst h
      · rw [readByte_writeByte_ne _ (by omega), readByte_writeByte_ne _ (by omega),
          readByte_writeByte_ne _ (by omega), readByte_writeByte_same _ hi (by omega), Nat.sub_self]
      · rw [readByte_writeByte_ne _ (by omega), readByte_writeByte_ne _ (by omega),
          readByte_writeByte_same _ hi (by simp; omega), Nat.add_sub_cancel_left]
      · rw [readByte_writeByte_ne _ (by omega), readByte_writeByte_same _ hi (by simp; omega), Nat.add_sub_cancel_left]
      · rw [readByte_writeByte_same _ hi (by simp; omega), Nat.add_sub_cancel_left]
    · rw [if_neg (by tauto)]
      unfold writeW
      rw [readByte_writeByte_ne _ (by omega), readByte_writeByte_ne _ (by omega), readByte_writeByte_ne _ (by omega),
        readByte_writeByte_ne _ (by omega)]
  · rw [if_neg (by tauto), readByte_beyond _ (by omega), readByte_beyond _ (by omega)]

/-- A word is its four byte lanes (R52). -/
theorem lanes_append (x : Word) : lane x 3 ++ lane x 2 ++ lane x 1 ++ lane x 0 = x := by
  apply BitVec.eq_of_getLsbD_eq
  intro i hi
  simp only [lane, BitVec.getLsbD_append, BitVec.getLsbD_extractLsb']
  split
  · simp [*]
  · split
    · have h : i - 8 < 8 := by omega
      simp [h, show 8 + (i - 8) = i by omega]
    · split
      · have h : i - 8 - 8 < 8 := by omega
        simp [h, show 16 + (i - 8 - 8) = i by omega]
      · have h : i - 8 - 8 - 8 < 8 := by omega
        simp [h, show 24 + (i - 8 - 8 - 8) = i by omega]

/-- The low 32 bits, as a mask. -/
theorem getLsbD_mask32 (j : Nat) : (0xFFFFFFFF#128).getLsbD j = decide (j < 32) := by
  rw [BitVec.getLsbD_ofNat, show (0xFFFFFFFF : Nat) = 2 ^ 32 - 1 by norm_num, Nat.testBit_two_pow_sub_one]
  by_cases h : j < 32
  · simp [h]
    omega
  · simp [h]

/-- Every bit of N after a write to N_k (R43). -/
theorem writeN_getLsbD (k : Nat) (x : Word) (b : Block) {i : Nat} (hi : i < 128) :
    (writeN k x b).n.getLsbD i =
      if 32 * k ≤ i ∧ i < 32 * k + 32 then x.getLsbD (i - 32 * k) else b.n.getLsbD i := by
  simp only [writeN, BitVec.getLsbD_or, BitVec.getLsbD_and, BitVec.getLsbD_not, BitVec.getLsbD_shiftLeft,
    getLsbD_mask32, BitVec.getLsbD_setWidth]
  by_cases h1 : i < 32 * k
  · simp [h1, hi, Nat.not_le.2 h1]
  · by_cases h2 : i < 32 * k + 32
    · have h3 : i - 32 * k < 32 := by omega
      have h4 : i - 32 * k < 128 := by omega
      simp [h1, h2, h3, h4, hi, Nat.not_lt.1 h1]
    · have h3 : ¬i - 32 * k < 32 := by omega
      have h4 : x.getLsbD (i - 32 * k) = false := BitVec.getLsbD_of_ge _ _ (by omega)
      simp [h1, h2, h3, h4, hi]

/-! ### The digit loop -/

@[simp] theorem digits_length (radix count v : Nat) : (digits radix count v).length = count := by
  induction count generalizing v with
  | zero => rfl
  | succ k ih => simp [digits, ih]

/-- The quotient after `count` steps is the exact quotient by `radix^count`. -/
theorem quotient_eq (radix count v : Nat) : quotient radix count v = v / radix ^ count := by
  induction count generalizing v with
  | zero => simp [quotient]
  | succ k ih => rw [quotient, ih, Nat.div_div_eq_div_mul, pow_succ, Nat.mul_comm]

/-- The j-th digit is the j-th base-`radix` digit. -/
theorem digits_getD (radix : Nat) {count j : Nat} (v : Nat) (h : j < count) :
    (digits radix count v).getD j 0 = BitVec.ofNat 32 (v / radix ^ j % radix) := by
  induction count generalizing v j with
  | zero => omega
  | succ k ih =>
    cases j with
    | zero => simp [digits]
    | succ j => rw [digits, List.getD_cons_succ, ih _ (by omega), Nat.div_div_eq_div_mul, pow_succ, Nat.mul_comm]

theorem digitBuffer_length {c : Config.Params} {b : Block} (h : b.len.toNat ≤ c.maxd) :
    (digitBuffer c b).length = c.maxd := by
  simp [digitBuffer]; omega

theorem digitBuffer_getD_lt (c : Config.Params) {b : Block} {j : Nat} (h : j < b.len.toNat) :
    (digitBuffer c b).getD j 0 = BitVec.ofNat 32 (b.v / b.radix.toNat ^ j % b.radix.toNat) := by
  rw [digitBuffer, List.getD_append _ _ _ _ (by simpa using h), digits_getD _ _ h]

theorem digitBuffer_getD_ge (c : Config.Params) {b : Block} {j : Nat} (h : b.len.toNat ≤ j) :
    (digitBuffer c b).getD j 0 = 0 := by
  rw [digitBuffer, List.getD_append_right _ _ _ _ (by simpa using h)]
  simp [List.getElem?_replicate]
  split <;> rfl

end Sys2Proof.Machine
end

