-- ==== Sys2Proof/Laws/Exec.lean ====
section
/-! SUPPORT. What each meaning and one step can do, said once. -/

namespace Sys2Proof.Machine

/-! ### The commands -/

theorem exec_nop (s : State) : exec .nop s = .next (s.after s.block 0) := rfl

theorem exec_pack (s : State) : exec .pack s = .next (s.after (gated s.cfg packBody s.block) 0) := rfl

theorem exec_unpack (s : State) : exec .unpack s = .next (s.after (gated s.cfg unpackBody s.block) 0) := rfl

theorem exec_divstep (s : State) : exec .divstep s = .next (s.after (gated s.cfg divstepBody s.block) 0) := rfl

theorem exec_convert (s : State) : exec .convert s = .next (s.after (gated s.cfg convertBody s.block) 0) := rfl

theorem exec_incn (s : State) : exec .incn s = .next (s.after (gated s.cfg incnBody s.block) 0) := rfl

theorem exec_movvn (s : State) : exec .movvn s = .next (s.after (gated s.cfg movvnBody s.block) 0) := rfl

theorem exec_clrerr (s : State) : exec .clrerr s = .next (s.after (returnFromError s.block) 0) := rfl

theorem exec_srst (s : State) : exec .srst s = .next (s.after (resetBlock s.cfg) 0) := rfl

/-- What Dispatch makes of the block, for any word (R157). -/
def dispatchBlock (c : Config.Params) (word : CmdWord) (b : Block) : Block :=
  match decodeCommand word with
  | .ok .nop => b
  | .ok .pack => gated c packBody b
  | .ok .unpack => gated c unpackBody b
  | .ok .divstep => gated c divstepBody b
  | .ok .convert => gated c convertBody b
  | .ok .incn => gated c incnBody b
  | .ok .movvn => gated c movvnBody b
  | .ok .clrerr => returnFromError b
  | .ok .srst => resetBlock c
  | .error _ => gated c (fun _ _ => .error .illegal) b

/-- Dispatch always completes. -/
theorem dispatch_eq (word : CmdWord) (s : State) :
    dispatch word s = .next (s.after (dispatchBlock s.cfg word s.block) 0) := by
  unfold dispatch dispatchBlock
  cases decodeCommand word with
  | error e => rfl
  | ok k => cases k <;> rfl

/-- A word that decodes to a command runs that command. -/
theorem dispatch_of_command {word : CmdWord} {k : Command} (h : decodeCommand word = .ok k) (s : State) :
    dispatch word s = exec k.toInstr s := by
  unfold dispatch
  rw [h]
  cases k <;> rfl

/-! ### The transactions -/

theorem execRd_legal {size : Size} {a : Offset} (h : legalAccess size a = true) (s : State) :
    exec (.rd size a) s = .next (s.after s.block (readReg s.cfg s.block (regAt a))) := by
  simp [exec, execRd, h]

theorem execRd_illegal {size : Size} {a : Offset} (h : legalAccess size a = false) (s : State) :
    exec (.rd size a) s = takeBusError s := by
  simp [exec, execRd, h]

theorem execWr_illegal {size : Size} {a : Offset} (h : legalAccess size a = false) (x : Word) (s : State) :
    exec (.wr size a x) s = takeBusError s := by
  simp [exec, execWr, h]

/-- A legal write to CMD dispatches its data (R91). -/
theorem execWr_cmd (x : Word) (s : State) : exec (.wr .word cmdOffset x) s = dispatch x s := by
  simp only [exec, execWr]
  rw [if_pos (by decide), show regAt cmdOffset = .cmd by decide]

/-- A legal write to any other register (R91). -/
theorem execWr_reg {size : Size} {a : Offset} (h : legalAccess size a = true) (hr : regAt a ≠ .cmd) (x : Word)
    (s : State) : exec (.wr size a x) s = .next (s.after (writeReg s.cfg s.block x (regAt a)) 0) := by
  simp only [exec, execWr, h, if_true]
  cases hra : regAt a <;> rfl

/-- Only offset 0x008 is CMD (R39). -/
theorem regAt_eq_cmd {a : Offset} : regAt a = .cmd ↔ a = cmdOffset := by
  constructor
  · intro h
    apply BitVec.eq_of_toNat_eq
    rw [show cmdOffset.toNat = 8 from rfl]
    by_contra h8
    unfold regAt at h
    dsimp only at h
    rw [if_neg h8] at h
    repeat (split at h <;> [cases h; skip])
    cases h
  · rintro rfl
    decide

/-! ### One step -/

theorem nextEvent_of_ended {s : State} (h : s.program.length ≤ s.pc) : nextEvent s = none := by
  simp [nextEvent, h]

/-- The event placed by withFetchWord is the next one. -/
@[simp] theorem nextEvent_withFetchWord (s : State) (nbits w : Nat) :
    nextEvent (s.withFetchWord nbits w) = some (.txn (portWord nbits w)) := by
  simp only [nextEvent, State.withFetchWord_program, State.withFetchWord_pc, placeNext]
  rw [List.getElem?_append_right (by simp)]
  simp

/-- Everything one step can do when it answers a next state. -/
theorem step_cases {s t : State} (h : step s = .next t) :
    (nextEvent s = some .assertReset ∧ t = advance (assertResetInput s)) ∨
    (nextEvent s = some .releaseReset ∧ t = advance (releaseResetInput s)) ∨
    (∃ w u, nextEvent s = some (.txn w) ∧ s.resetIn = false ∧ exec (decodeTxn w) s = .next u ∧ t = advance u) := by
  unfold step at h
  split at h
  · cases h
  · cases h
    exact .inl ⟨by assumption, rfl⟩
  · cases h
    exact .inr (.inl ⟨by assumption, rfl⟩)
  · split at h
    · cases h
    · rename_i w hw hr
      cases he : exec (decodeTxn w) s with
      | next u =>
        rw [he] at h
        cases h
        exact .inr (.inr ⟨w, u, hw, by simpa using hr, he, rfl⟩)
      | fault r => rw [he] at h; cases h
      | refused r => rw [he] at h; cases h

end Sys2Proof.Machine
end

