-- ==== Sys2Proof/Laws/PerInstr.lean ====
section
/-! SUPPORT. The per-instruction family `EncodesInItsRow`: the encoded word of a well-formed instruction fits the width
of its row of spec/opcode_table.json and has that row's fixed bits. -/

namespace Sys2Proof.Laws

/-- An aligned offset has its two low bits clear (R55). -/
theorem aligned_iff (a : Offset) : aligned a = true ↔ a[0] = false ∧ a[1] = false := by
  simp only [aligned, beq_iff_eq]
  constructor
  · intro h
    have h0 := congrArg (fun b => b.getLsbD 0) h
    have h1 := congrArg (fun b => b.getLsbD 1) h
    simp at h0 h1
    exact ⟨h0, h1⟩
  · rintro ⟨h0, h1⟩
    apply BitVec.eq_of_getLsbD_eq
    intro i hi
    interval_cases i
    · simp [h0]
    · simp [h1]

/-- A legal access is a word access to an aligned offset (R72). -/
theorem legalAccess_iff (size : Size) (a : Offset) :
    legalAccess size a = true ↔ size = .word ∧ a[0] = false ∧ a[1] = false := by
  simp [legalAccess, aligned_iff]

/-- The fixed bits of a legal transaction are those of its row's mask. -/
theorem txnWord_masked (write : BitVec 1) {a : Offset} (h0 : a[0] = false) (h1 : a[1] = false)
    (x : Word) : txnWord write .word a x &&& 0x700300000000 = txnWord write .word 0 0 := by
  apply BitVec.eq_of_getLsbD_eq
  intro i hi
  have hm : (0x700300000000 : TxnWord).getLsbD i = decide (i = 32 ∨ i = 33 ∨ i = 44 ∨ i = 45 ∨ i = 46) := by
    revert i
    decide
  rw [BitVec.getLsbD_and, hm]
  simp only [txnWord, BitVec.getLsbD_append]
  by_cases h : i = 32 ∨ i = 33 ∨ i = 44 ∨ i = 45 ∨ i = 46
  · rcases h with rfl | rfl | rfl | rfl | rfl
    · simp [h0]
    · simp [h1]
    all_goals simp
  · simp only [h, decide_false, Bool.and_false]
    split
    · simp
    · split
      · simp
      · omega

end Sys2Proof.Laws

namespace Sys2Proof.Laws.EncodesInItsRow

/-- The encoded word of `i` has at most its row's bits and, where `i` is well formed, matches its row. -/
def Statement (i : Instr) : Prop :=
  encode i < 2 ^ encodeBits i ∧ (WellFormed i = true → encode i &&& (tableRow i).1 = (tableRow i).2)

theorem rd (size : Size) (a : Offset) : Statement (.rd size a) := by
  refine ⟨lt_trans (encodeRd size a).isLt (by norm_num [encodeBits]), fun h => ?_⟩
  obtain ⟨rfl, h0, h1⟩ := (legalAccess_iff size a).1 h
  exact congrArg BitVec.toNat (txnWord_masked 0 h0 h1 0)

theorem wr (size : Size) (a : Offset) (x : Word) : Statement (.wr size a x) := by
  refine ⟨lt_trans (encodeWr size a x).isLt (by norm_num [encodeBits]), fun h => ?_⟩
  obtain ⟨rfl, h0, h1⟩ := (legalAccess_iff size a).1 h
  exact congrArg BitVec.toNat (txnWord_masked 1 h0 h1 x)

theorem nop : Statement .nop := by simp only [Statement]; decide
theorem pack : Statement .pack := by simp only [Statement]; decide
theorem unpack : Statement .unpack := by simp only [Statement]; decide
theorem divstep : Statement .divstep := by simp only [Statement]; decide
theorem convert : Statement .convert := by simp only [Statement]; decide
theorem incn : Statement .incn := by simp only [Statement]; decide
theorem movvn : Statement .movvn := by simp only [Statement]; decide
theorem clrerr : Statement .clrerr := by simp only [Statement]; decide
theorem srst : Statement .srst := by simp only [Statement]; decide

end Sys2Proof.Laws.EncodesInItsRow
end

