-- ==== Sys2Proof/Tests/Slice0.lean ====
section
/-! SUPPORT. Tests of the model against words and vectors of the spec (spec/95_test_vectors.md names them C1, V1, K1,
H1 …), the smoke test of WellFormed, and one witness for each statement that has hypotheses. -/

namespace Sys2Proof.Tests

open Sys2Proof Sys2Proof.Machine

/-! ### Helpers -/

/-- An instance with capacities `maxw` and `maxd` after reset. -/
def fresh (maxw maxd : Nat) : State := State.resetWith { maxw := maxw, maxd := maxd }

/-- `s` with its block changed. -/
def onBlock (s : State) (f : Block → Block) : State := s.setBlock (f s.block)

/-- `s` with one event in the host's program. -/
def withEvent (s : State) (e : HostEvent) : State := { s with program := [e] }

/-- The block of a next state. -/
def blockOf : Result → Option Block
  | .next s => some s.block
  | .fault _ => none
  | .refused _ => none

/-- The last response of a next state, as ERR and RDATA. -/
def answer : Result → Option (Bool × Word)
  | .next s => s.responses.getLast?.map fun r => (r.err, r.rdata)
  | .fault _ => none
  | .refused _ => none

/-- What a word read of an offset returns. -/
def readAt (s : State) (a : Offset) : Option (Bool × Word) := answer (exec (.rd .word a) s)

/-- The reference instance with N, W, V and D holding recognisable values, for reads at every kind of offset. -/
def filled : State :=
  onBlock (fresh 17 3) fun b => { b with
    n := 0x0F0E0D0C0B0A09080706050403020100
    w := (List.range 17).map fun i => BitVec.ofNat 8 (i + 1)
    wlen := 0x11, v := 0x110000000F0E0D0C0B0A0908070605040, radix := 62, len := 22, rem := 7, d := [5, 6, 7],
    err := 1, ign := true }

/-! ### WellFormed: each check refuses an ill-formed term (R72) -/

theorem test_wellformed_legal : WellFormed (.rd .word 0xFFC) = true ∧ WellFormed (.wr .word 0x008 0) = true := by decide
theorem test_wellformed_byte_read : WellFormed (.rd .byte 0x000) = false := by decide
theorem test_wellformed_half_write : WellFormed (.wr .half 0x010 1) = false := by decide
theorem test_wellformed_reserved_size : WellFormed (.rd .reserved 0x000) = false := by decide
theorem test_wellformed_misaligned_read : WellFormed (.rd .word 0x002) = false := by decide
theorem test_wellformed_misaligned_write : WellFormed (.wr .word 0x009 0xFF) = false := by decide
theorem test_pseudo_too_long : pseudoWellFormed (.rdd 257) = false := by decide

/-! ### Decoding: words written out from the encodings of R71, R73, R74 -/

-- WRITE 0, SIZE 10, ADDR 0000_0000_1100, WDATA zeros
theorem test_decode_rd : decodeTableWord 48
    0b01000000000110000000000000000000000000000000000 = some (.rd .word 0x00C) := by decide
-- WRITE 1, SIZE 10, ADDR 0000_0001_0000, WDATA 0x03020100
theorem test_decode_wr : decodeTableWord 48
    0b11000000001000000000011000000100000000100000000 = some (.wr .word 0x010 0x03020100) := by decide
-- H6, H10 and a misaligned write (H14)
theorem test_decode_illegal_access :
    decodeTableWord 48 0x000000000000 = some (.rd .byte 0x000) ∧
    decodeTableWord 48 0x501000000001 = some (.wr .half 0x010 1) ∧
    decodeTableWord 48 0x6009000000FF = some (.wr .word 0x009 0xFF) := by decide
theorem test_decode_nop : decodeTableWord 32 0b00000000000000000000000000000000 = some .nop := by decide
theorem test_decode_pack : decodeTableWord 32 0b00000000000000000000000000000001 = some .pack := by decide
theorem test_decode_unpack : decodeTableWord 32 0b00000000000000000000000000000010 = some .unpack := by decide
theorem test_decode_divstep : decodeTableWord 32 0b00000000000000000000000000000011 = some .divstep := by decide
theorem test_decode_convert : decodeTableWord 32 0b00000000000000000000000000000100 = some .convert := by decide
theorem test_decode_incn : decodeTableWord 32 0b00000000000000000000000000000101 = some .incn := by decide
theorem test_decode_movvn : decodeTableWord 32 0b00000000000000000000000000000110 = some .movvn := by decide
theorem test_decode_clrerr : decodeTableWord 32 0b00000000000000000000000000000111 = some .clrerr := by decide
theorem test_decode_srst : decodeTableWord 32 0b00000000000000000000000011111111 = some .srst := by decide
-- K5, K6, K7, K8, K11: reserved words name no command
theorem test_decode_illegal_words :
    [0x00000008, 0x000000FE, 0x00000100, 0x000001FF, 0x80000004].map (decodeTableWord 32) =
      [none, none, none, none, none] := by decide
theorem test_decode_beyond_format : decodeTableWord 48 0xE00C00000000 = none ∧ decodeTableWord 16 0 = none := by decide
-- spec/95: "WR N0, 0x03020100 is 0x6010_0302_0100 and RD STATUS is 0x200C_0000_0000"
theorem test_encode_written : encode (.wr .word 0x010 0x03020100) = 0x601003020100 ∧
    encode (.rd .word 0x00C) = 0x200C00000000 ∧ encode .srst = 0xFF := by decide

/-! ### RD and WR -/

-- H1, H2, H3, H4, H12, H13 at the reference parameters, and the BusErrors H5 and H6
theorem test_rd_reference : [0x000, 0x004, 0x008, 0x030, 0x210, 0x600].map (readAt State.reset) =
    [some (false, 0x50505943), some (false, 0x00008010), some (false, 0), some (false, 0), some (false, 0),
     some (false, 0)] ∧ answer (exec (.rd .word 0x002) filled) = some (true, 0) ∧
    answer (exec (.rd .byte 0x000) filled) = some (true, 0) := by decide
-- a boundary offset of each range of R90
theorem test_rd_every_range :
    [0x00C, 0x010, 0x01C, 0x020, 0x024, 0x028, 0x02C, 0x100, 0x110, 0x114, 0x1FC, 0x200, 0x210, 0x2FC, 0x400, 0x408,
     0x40C, 0x7FC, 0x0FC, 0x300, 0x3FC, 0x800, 0xFFC].map (fun a => (readAt filled a).map Prod.snd) =
    [0x101, 0x03020100, 0x0F0E0D0C, 0x11, 62, 22, 7, 0x04030201, 0x11, 0, 0, 0x70605040, 0x1, 0, 5, 7,
     0, 0, 0, 0, 0, 0, 0].map some := by decide
-- H7 (WLEN drops the high bits), H11 with MAXW = 17 (only byte 16 exists), and N2 alone
theorem test_wr_registers :
    (blockOf (exec (.wr .word 0x020 0x00000111) (fresh 16 4))).map (·.wlen) = some 0x11 ∧
    (blockOf (exec (.wr .word 0x110 0x11223344) filled)).map (fun b => b.w.drop 15) = some [16, 0x44] ∧
    (blockOf (exec (.wr .word 0x018 0xAABBCCDD) filled)).map (·.n) = some 0x0F0E0D0CAABBCCDD0706050403020100 := by
  decide
-- H8, H9, H10, H14: read-only registers and illegal writes change nothing
theorem test_wr_ignored :
    [blockOf (exec (.wr .word 0x00C 0xFFFFFFFF) filled), blockOf (exec (.wr .word 0x000 0) filled),
     blockOf (exec (.wr .half 0x010 1) filled), blockOf (exec (.wr .word 0x009 0xFF) filled)] =
    [some filled.block, some filled.block, some filled.block, some filled.block] := by decide

/-! ### Commands, from the vectors of spec/95 -/

/-- A block after a command from a fresh reference-width instance with the given change. -/
def run (i : Instr) (f : Block → Block) : Option Block := blockOf (exec i (onBlock (fresh 16 8) f))

-- C4
theorem test_pack_c4 : (run .pack fun b => { b with n := 0x000102030405060708090A0B0C0D0E0F }).map
    (fun b => (b.w, b.wlen)) = some ([15, 14, 13, 12, 11, 10, 9, 8, 7, 6, 5, 4, 3, 2, 1, 0], 16) := by decide
-- R100: W[16..] is cleared
theorem test_pack_clears_rest : (blockOf (exec .pack filled)).map (·.w) = some filled.block.w ∧
    (blockOf (exec .pack (onBlock filled fun b => { b with err := 0 }))).map (fun b => b.w.drop 15) =
      some [0x0F, 0] := by decide
-- C6
theorem test_unpack_c6 : (run .unpack fun b => { b with w := [1, 2, 3], wlen := 3 }).map (·.v) = some 0x030201 := by
  decide
-- C8, C9
theorem test_unpack_c8_c9 :
    (run .unpack fun b => { b with wlen := 17, v := 9 }).map (fun b => (b.err, b.v)) = some (3, 9) ∧
    (blockOf (exec .unpack (onBlock filled fun b => { b with err := 0 }))).map (·.v) =
      some 0x11100F0E0D0C0B0A090807060504030201 := by decide
-- C10, C11
theorem test_movvn_c10_c11 :
    (run .movvn fun b => { b with v := 2 ^ 128, n := 5 }).map (fun b => (b.err, b.n)) = some (1, 5) ∧
    (run .movvn fun b => { b with v := 0x030201 }).map (·.n) = some 0x030201 := by decide
-- C13, C14
theorem test_incn_c13_c14 :
    (run .incn fun b => { b with n := 0xFFFFFFFFFFFFFFFFFFFFFFFFFFFFFFFE }).map (fun b => (b.err, b.n)) =
      some (0, 0xFFFFFFFFFFFFFFFFFFFFFFFFFFFFFFFF) ∧
    (run .incn fun b => { b with n := 0xFFFFFFFFFFFFFFFFFFFFFFFFFFFFFFFF }).map (fun b => (b.err, b.n)) =
      some (1, 0xFFFFFFFFFFFFFFFFFFFFFFFFFFFFFFFF) := by decide
-- C15
theorem test_incn_c15 : (run .incn fun b => { b with n := 0x00000000FFFFFFFFFFFFFFFFFFFFFFFF }).map (·.n) =
    some 0x00000001000000000000000000000000 := by decide
-- V1, V5
theorem test_divstep_v1_v5 :
    (run .divstep fun b => { b with v := 1234, radix := 10 }).map (fun b => (b.rem, b.v, b.err)) =
      some (4, 123, 0) ∧
    (run .divstep fun b => { b with v := 1234, radix := 0, rem := 3 }).map (fun b => (b.rem, b.v, b.err)) =
      some (3, 1234, 2) := by decide
-- V6 over stale digits (V23's point), V12
theorem test_convert_v6_v12 :
    (run .convert fun b => { b with v := 1234567, radix := 10, len := 4, d := [9, 9, 9, 9, 9, 9, 9, 9] }).map
      (fun b => (b.d, b.v, b.rem)) = some ([7, 6, 5, 4, 0, 0, 0, 0], 123, 4) ∧
    (run .convert fun b => { b with v := 2 ^ 128 - 1, radix := 0xFFFFFFFF, len := 5 }).map
      (fun b => (b.d.take 5, b.v)) = some ([0, 4, 6, 4, 1], 0) := by decide
-- V18, V19, V20, V21, with MAXD = 8
theorem test_convert_errors :
    [(1, 4), (10, 0), (10, 200), (1, 200)].map (fun p : Word × BitVec 8 =>
      (run .convert fun b => { b with v := 5, radix := p.1, len := p.2 }).map (fun b => (b.err, b.v))) =
    [some (2, 5), some (2, 5), some (3, 5), some (2, 5)] := by decide
-- K2
theorem test_nop_k2 : (run .nop fun b => { b with err := 2 }).map (fun b => (b.err, b.ign)) = some (2, false) := by
  decide
-- K3
theorem test_clrerr_k3 : (blockOf (exec .clrerr filled)) = some { filled.block with err := 0, ign := false } := by decide
-- K4
theorem test_srst_k4 : blockOf (exec .srst filled) = some (fresh 17 3).block := by decide

/-! ### Dispatch -/

-- K5, K7, K8, K9, K10 and a misspelled SRST while an error is pending
theorem test_dispatch_k :
    [0x00000008, 0x00000100, 0x000001FF].map (fun c =>
      (blockOf (exec (.wr .word 0x008 c) (fresh 16 2))).map fun b => (b.err, b.ign)) =
      [some (4, false), some (4, false), some (4, false)] ∧
    [0x00000001, 0x00000008, 0x000001FF].map (fun c =>
      (blockOf (exec (.wr .word 0x008 c) (onBlock (fresh 16 2) fun b => { b with err := 1 }))).map
        fun b => (b.err, b.ign, b.wlen)) = [some (1, true, 0), some (1, true, 0), some (1, true, 0)] := by decide
-- P1 line 5: the CMD write runs PACK within the transaction
theorem test_dispatch_pack : (blockOf (exec (.wr .word 0x008 1) (fresh 16 2))).map (·.wlen) = some 16 := by decide

/-! ### The step -/

-- R60: the transaction at the port runs and the next event is next; P3 line 15
theorem test_step_read : (match step (withEvent State.reset (.txn 0x200C00000000)) with
    | .next t => some (t.pc, t.responses) | .fault _ => none | .refused _ => none) =
    some (1, [{ err := false, rdata := 0 }]) := by decide
-- every row of the opcode table runs as the first instruction after reset
theorem test_step_first_instruction :
    [(48, 0x200000000000), (48, 0x601000000005), (32, 0), (32, 1), (32, 2), (32, 3), (32, 4), (32, 5), (32, 6), (32, 7),
     (32, 0xFF)].map (fun p => (blockOf (step (State.reset.withFetchWord p.1 p.2))).map fun b => (b.n, b.wlen, b.err)) =
    [some (0, 0, 0), some (5, 0, 0), some (0, 0, 0), some (0, 16, 0), some (0, 0, 0), some (0, 0, 2), some (0, 0, 2),
     some (1, 0, 0), some (0, 0, 0), some (0, 0, 0), some (0, 0, 0)] := by decide

/-! ### Pseudo-instructions (R80) -/

theorem test_pseudo_wr128 : (expandPseudo (.wr128N 0x0F0E0D0C0B0A09080706050403020100)).map asmInstr =
    [.wr .word 0x010 0x03020100, .wr .word 0x014 0x07060504, .wr .word 0x018 0x0B0A0908,
     .wr .word 0x01C 0x0F0E0D0C] := by decide
theorem test_pseudo_wrw_rdd : (expandPseudo (.wrw [0x87, 0xD6, 0x12, 0, 5])).map asmInstr =
    [.wr .word 0x100 0x0012D687, .wr .word 0x104 5] ∧
    (expandPseudo (.rdd 2)).map asmInstr = [.rd .word 0x400, .rd .word 0x404] := by decide
-- the encoding column of P1 line 5
theorem test_assemble_cmd : assemble [.cmd .pack] = [.txn 0x600800000001] := by decide

/-! ### Witnesses: for each statement with hypotheses, a state and operands that meet all of them together -/

/-- A reference-width instance with one event at its port and the given change to its block. -/
def at1 (e : HostEvent) (f : Block → Block) : State := withEvent (onBlock (fresh 16 8) f) e

/-- A ready instance whose operands let every command complete: V, RADIX and LEN as in vector V6, WLEN at MAXW. -/
def ready : State :=
  onBlock (fresh 16 8) fun b => { b with n := 41, wlen := 16, v := 1234567, radix := 10, len := 4 }

/-- `ready` with every other register holding something else. -/
def readyOther : State := onBlock ready fun b => { b with n := 7, w := List.replicate 16 9, wlen := 3, rem := 5 }

theorem witness_StepRunsDecodedTransaction :
    let s := at1 (.txn 0x601000000005) id
    s.program[s.pc]? = some (.txn 0x601000000005) ∧ s.resetIn = false ∧
      ∃ u, exec (decodeTxn 0x601000000005) s = .next u := ⟨rfl, rfl, _, rfl⟩

theorem witness_StepRunsCommandWrittenToCmd :
    let s := at1 (.txn 0x600800000001) id
    s.program[s.pc]? = some (.txn (0x600800000000 ||| (encodeCommand .pack).setWidth 47)) ∧ s.resetIn = false ∧
      ∃ u, exec Command.pack.toInstr s = .next u := ⟨by decide, rfl, _, rfl⟩

theorem witness_StepRunsPlacedWord :
    decodeTableWord 32 0x04 = some .convert ∧ decodeTableWord 48 0x200C00000000 = some (.rd .word 0x00C) := by decide

theorem witness_RunEndsAfterLastEvent : State.reset.program.length ≤ State.reset.pc := by decide

theorem witness_NoStepForTransactionDuringReset :
    let s := assertResetInput (at1 (.txn 0x200000000000) id)
    s.program[s.pc]? = some (.txn 0x200000000000) ∧ s.resetIn = true := by decide

theorem witness_HardwareResetInput :
    (let s := at1 .assertReset fun b => { b with n := 5, err := 1 }; s.program[s.pc]? = some .assertReset) ∧
    (let s := assertResetInput (at1 .releaseReset id); s.program[s.pc]? = some .releaseReset) := by decide

theorem witness_StepKeepsParametersAndProgram :
    (∃ t, step (at1 (.txn 0x600800000005) id) = .next t) ∧ (∃ t, step (at1 .assertReset id) = .next t) :=
  ⟨⟨_, rfl⟩, ⟨_, rfl⟩⟩

theorem witness_EveryTransactionIsAnswered :
    (let s := at1 (.txn 0x600900000005) id; (∃ t, step s = .next t) ∧ s.program[s.pc]? = some (.txn 0x600900000005)) ∧
    (let s := at1 .assertReset id; (∃ t, step s = .next t) ∧ ∀ w, s.program[s.pc]? ≠ some (.txn w)) :=
  ⟨⟨⟨_, rfl⟩, rfl⟩, ⟨_, rfl⟩, fun w h => by injection h with h; injection h⟩

theorem witness_ConformingHostAlwaysSteps :
    (at1 (.txn 0x600800000005) id).HostConforms ∧ (at1 (.txn 0x600800000005) id).pc <
      (at1 (.txn 0x600800000005) id).program.length ∧
    (assertResetInput (at1 .releaseReset id)).HostConforms ∧ (assertResetInput (at1 .releaseReset id)).resetIn = true :=
  ⟨fun h => Bool.noConfusion h, by decide, fun _ _ h => by injection h with h; injection h, rfl⟩

theorem witness_BusErrorExactlyForIllegalAccess :
    (Size.half ≠ .word ∨ (0x010 : Offset).extractLsb' 0 2 ≠ 0) ∧ (Size.word ≠ .word ∨ (0xFFF : Offset).extractLsb' 0 2 ≠ 0) ∧
    (Size.word = .word ∧ (0xFFC : Offset).extractLsb' 0 2 = 0) := by decide

theorem witness_LegalTransactionFields :
    ((0x2FFC00000000 : TxnWord).extractLsb' 44 2 = 2 ∧ (0x2FFC00000000 : TxnWord).extractLsb' 32 2 = 0) ∧
    ¬((0x300000000000 : TxnWord).extractLsb' 44 2 = 2 ∧ (0x300000000000 : TxnWord).extractLsb' 32 2 = 0) := by decide

theorem witness_AccessesAreIdempotent : (0x100 : Offset) ≠ 0x008 := by decide

theorem witness_WWindowReadBack :
    (fresh 16 8).block.w.length = (fresh 16 8).cfg.maxw ∧ filled.block.w.length = filled.cfg.maxw := by decide

theorem witness_WriteLeavesOtherOffsetsAlone :
    (0x010 : Offset) ≠ 0x008 ∧ (0x014 : Offset) ≠ 0x010 ∧ aligned 0x010 = true ∧ aligned 0x014 = true := by decide

/-- Both ends of each range of the statement, at MAXW = 16 and MAXD = 128. -/
theorem witness_ReservedOffsetsReadZeroIgnoreWrites :
    State.reset.block.v < 2 ^ (8 * State.reset.cfg.maxw) ∧
    ([0x030, 0x0FC, 0x300, 0x3FC, 0x800, 0xFFC, 0x110, 0x1FC, 0x210, 0x2FC, 0x600, 0x7FC].all fun a : Offset => decide
      (aligned a = true ∧
      ((0x030 ≤ a.toNat ∧ a.toNat ≤ 0x0FC) ∨ (0x300 ≤ a.toNat ∧ a.toNat ≤ 0x3FC) ∨
        (0x800 ≤ a.toNat ∧ a.toNat ≤ 0xFFC) ∨
        (0x100 ≤ a.toNat ∧ a.toNat ≤ 0x1FC ∧ State.reset.cfg.maxw ≤ a.toNat - 0x100) ∨
        (0x200 ≤ a.toNat ∧ a.toNat ≤ 0x2FC ∧ State.reset.cfg.maxw ≤ a.toNat - 0x200) ∨
        (0x400 ≤ a.toNat ∧ a.toNat ≤ 0x7FC ∧ State.reset.cfg.maxd ≤ (a.toNat - 0x400) / 4)))) = true := by decide

theorem witness_PackGivesLittleEndianBytes : ready.block.err = 0 := by decide

/-- WLEN at MAXW, and one above it (LENGTH). -/
theorem witness_UnpackSumsBytes : ready.block.err = 0 ∧ ¬ready.block.wlen.toNat > ready.cfg.maxw ∧
    (let s := onBlock ready fun b => { b with wlen := 17 }; s.block.err = 0 ∧ s.block.wlen.toNat > s.cfg.maxw) := by decide

/-- V at 2^128-1, and at 2^128. -/
theorem witness_MovvnChecksRange :
    (let s := onBlock (fresh 17 8) fun b => { b with v := 2 ^ 128 - 1 }; s.block.err = 0 ∧ s.block.v < 2 ^ 128) ∧
    (let s := onBlock (fresh 17 8) fun b => { b with v := 2 ^ 128 }; s.block.err = 0 ∧ 2 ^ 128 ≤ s.block.v) := by decide

/-- N at 2^128-1, and one below it. -/
theorem witness_IncnNeverWraps :
    (let s := onBlock ready fun b => { b with n := BitVec.allOnes 128 }; s.block.err = 0 ∧ s.block.n.toNat = 2 ^ 128 - 1) ∧
    (let s := onBlock ready fun b => { b with n := BitVec.allOnes 128 - 1 }
     s.block.err = 0 ∧ s.block.n.toNat ≠ 2 ^ 128 - 1) := by decide

theorem witness_PackUnpackRoundTrip : ready.cfg.Legal ∧ ready.block.err = 0 := by decide

theorem witness_UnpackedValueIsBounded : ready.block.err = 0 ∧ ready.block.wlen.toNat ≤ ready.cfg.maxw := by decide

theorem witness_UnpackMovvnPackRestoresBytes :
    ready.cfg.Legal ∧ ready.block.err = 0 ∧ ready.block.wlen.toNat ≤ 16 := by decide

theorem witness_MixedWidthViewsAgree : ready.cfg.Legal ∧ ready.block.err = 0 ∧ ready.block.wlen = 16 := by decide

/-- RADIX 1, and RADIX 2. -/
theorem witness_DivstepQuotientAndRemainder :
    (let s := onBlock ready fun b => { b with radix := 1 }; s.block.err = 0 ∧ s.block.radix.toNat < 2) ∧
    (let s := onBlock ready fun b => { b with radix := 2 }; s.block.err = 0 ∧ 2 ≤ s.block.radix.toNat) := by decide

/-- The four cases of the statement: RADIX 1; LEN 0; LEN = MAXD + 1; LEN = MAXD. -/
theorem witness_ConvertExtractsDigits :
    (let s := onBlock ready fun b => { b with radix := 1 }; s.block.err = 0 ∧ s.block.radix.toNat < 2) ∧
    (let s := onBlock ready fun b => { b with len := 0 }
     s.block.err = 0 ∧ ¬s.block.radix.toNat < 2 ∧ s.block.len.toNat = 0) ∧
    (let s := onBlock ready fun b => { b with len := 9 }
     s.block.err = 0 ∧ ¬s.block.radix.toNat < 2 ∧ s.block.len.toNat ≠ 0 ∧ s.block.len.toNat > s.cfg.maxd) ∧
    (let s := onBlock ready fun b => { b with len := 8 }
     s.block.err = 0 ∧ ¬s.block.radix.toNat < 2 ∧ s.block.len.toNat ≠ 0 ∧ ¬s.block.len.toNat > s.cfg.maxd) := by decide

theorem witness_ConvertIsLenDivsteps : ready.block.err = 0 ∧ 2 ≤ ready.block.radix.toNat ∧
    1 ≤ ready.block.len.toNat ∧ ready.block.len.toNat ≤ ready.cfg.maxd := by decide

theorem witness_ConvertReconstructsDividend : ready.block.err = 0 ∧ 2 ≤ ready.block.radix.toNat ∧
    1 ≤ ready.block.len.toNat ∧ ready.block.len.toNat ≤ ready.cfg.maxd := by decide

/-- V = 1234567 and V = 99990000 + 4567 agree modulo 10^4. -/
theorem witness_DigitsDependOnlyOnLowPart :
    let s := ready
    let s' := onBlock ready fun b => { b with v := 99994567 }
    s.block.err = 0 ∧ s'.block.err = 0 ∧ s'.cfg.maxd = s.cfg.maxd ∧ s'.block.radix = s.block.radix ∧
    s'.block.len = s.block.len ∧ 2 ≤ s.block.radix.toNat ∧ 1 ≤ s.block.len.toNat ∧ s.block.len.toNat ≤ s.cfg.maxd ∧
    s'.block.v % s.block.radix.toNat ^ s.block.len.toNat = s.block.v % s.block.radix.toNat ^ s.block.len.toNat ∧
    s'.block.v ≠ s.block.v := by decide

theorem witness_ConverterIsDeterministic :
    ready.block.err = 0 ∧ readyOther.block.err = 0 ∧ readyOther.cfg.maxd = ready.cfg.maxd ∧
    readyOther.block.v = ready.block.v ∧ readyOther.block.radix = ready.block.radix ∧
    readyOther.block.len = ready.block.len ∧ 2 ≤ ready.block.radix.toNat ∧ 1 ≤ ready.block.len.toNat ∧
    ready.block.len.toNat ≤ ready.cfg.maxd ∧ readyOther ≠ ready := by decide

theorem witness_NopChangesNothing : (1 : BitVec 24) ≠ 0 := by decide

/-- Both kinds of Illegal word, at both ends of the OP range; with and without an error pending. -/
theorem witness_IllegalWordRaisesIllegal :
    ([(0x00000100 : CmdWord), 0x000001FF, 0x00000008, 0x000000FE].all fun c => decide
      (c.extractLsb' 8 24 ≠ 0 ∨ (0x08 ≤ (c.extractLsb' 0 8).toNat ∧ (c.extractLsb' 0 8).toNat ≤ 0xFE))) = true ∧
    ready.block.err = 0 ∧ filled.block.err ≠ 0 := by decide

theorem witness_ErrorsArePrecise : Instr.convert ∈ [Instr.pack, .unpack, .movvn, .incn, .divstep, .convert] ∧
    ready.block.err = 0 := by decide

theorem witness_PendingErrorDropsCommands : filled.block.err ≠ 0 ∧ (0x01 : CmdWord) ≠ 0x00 ∧ (0x01 : CmdWord) ≠ 0x07 ∧
    (0x01 : CmdWord) ≠ 0xFF ∧ Instr.pack ∈ [Instr.pack, .unpack, .movvn, .incn, .divstep, .convert] := by decide

theorem witness_ErrorIsSticky :
    let s := at1 (.txn 0x600800000001) fun b => { b with err := 1, ign := true }
    (∃ t, step s = .next t) ∧ s.block.err ≠ 0 ∧ s.block.ign = true := ⟨⟨_, rfl⟩, by decide, rfl⟩

/-- An Illegal word changes ERR; a dropped PACK changes IGN. -/
theorem witness_OnlyDispatchAndResetChangeFlags :
    (let s := at1 (.txn 0x600800000008) id; ∃ t, step s = .next t ∧ t.block.err ≠ s.block.err) ∧
    (let s := at1 (.txn 0x600800000001) fun b => { b with err := 1 }
     ∃ t, step s = .next t ∧ t.block.ign ≠ s.block.ign) :=
  ⟨⟨_, rfl, by decide⟩, ⟨_, rfl, by decide⟩⟩

/-- CONVERT changes V, REM and D. -/
theorem witness_OnlyCommandsChangeResults :
    let s := at1 (.txn 0x600800000004) fun b => { b with v := 1234567, radix := 10, len := 4 }
    ∃ t, step s = .next t ∧ t.block.v ≠ s.block.v ∧ t.block.rem ≠ s.block.rem ∧ t.block.d ≠ s.block.d :=
  ⟨_, rfl, by decide, by decide, by decide⟩

theorem witness_CommandsFromResetValues : (fresh 16 8).cfg.Legal ∧ (fresh 255 255).cfg.Legal := by decide

theorem witness_InvHoldsAtReset : ({ maxw := 16, maxd := 1 } : Config.Params).Legal := by decide

theorem witness_StepKeepsInv :
    (at1 (.txn 0x600800000005) id).Inv ∧ (∃ t, step (at1 (.txn 0x600800000005) id) = .next t) ∧
    (at1 .assertReset id).Inv ∧ ∃ t, step (at1 .assertReset id) = .next t :=
  ⟨by decide, ⟨_, rfl⟩, by decide, ⟨_, rfl⟩⟩

/-! ### The text of host programs (R79) -/

-- P1 lines 1 and 6 with their comment and recorded value, and a pseudo-instruction
theorem test_read_line :
    readLine ['W', 'R', ' ', 'N', '0', ',', ' ', '0', 'x', '0', '3', '0', '2', '_', '0', '1', '0', '0', ' ', ';', 'c'] =
      some [.wr (.named (.n 0)) 0x03020100] ∧
    readLine ['R', 'D', ' ', '@', '0', 'x', '0', '3', '0', ' ', '-', '>', ' ', '0'] = some [.rd (.offset 0x030)] ∧
    readLine ['R', 'D', 'D', ' ', '2'] = some [.rd (.named (.d 0)), .rd (.named (.d 1))] ∧
    readLine ['R', 'D', ' ', 'N', '4'] = none := by decide

/-- The spellings log entry 17 refuses: other spellings of an index, and `_` not between two digits. -/
theorem test_refused_spellings :
    (['N', '_', '1'] :: ['N', '0', '0'] :: ['W', '0', 'x', '3'] :: ['N', '_'] :: ['N'] :: []).map readReg79 =
      List.replicate 5 none ∧
    (['_'] :: ['0', 'x', '_'] :: ['_', '1'] :: ['1', '_'] :: ['1', '_', '_', '2'] :: ['0', 'x'] :: []).map (readNumber 16) =
      List.replicate 6 none ∧
    readReg79 ['W', '6', '3'] = some (.named (.w 63)) ∧ readReg79 ['N', '0'] = some (.named (.n 0)) ∧
    readNumber 256 ['1', '_', '2'] = some 12 := by decide

end Sys2Proof.Tests
end

section
/-! The scope of the model (spec/00_scope.md): what every instruction leaves alone at the port, the placement of the
register window, and the invariant after reset. -/

namespace Sys2Proof.Machine

/-! ### What an instruction can answer -/

/-- Everything an instruction can do: take BusError (R56), or complete with `err = 0`, some block and some RDATA. -/
theorem exec_cases (i : Instr) (s : State) :
    exec i s = takeBusError s ∨ ∃ b x, exec i s = .next (s.after b x) := by
  cases i with
  | rd size a =>
    cases h : legalAccess size a with
    | true => exact .inr ⟨_, _, execRd_legal h s⟩
    | false => exact .inl (execRd_illegal h s)
  | wr size a x =>
    cases h : legalAccess size a with
    | false => exact .inl (execWr_illegal h x s)
    | true =>
      by_cases hr : regAt a = .cmd
      · obtain rfl := regAt_eq_cmd.1 hr
        obtain ⟨rfl, -⟩ : size = .word ∧ aligned cmdOffset = true := by simpa [legalAccess] using h
        exact .inr ⟨_, _, (execWr_cmd x s).trans (dispatch_eq x s)⟩
      · exact .inr ⟨_, _, execWr_reg h hr x s⟩
  | nop => exact .inr ⟨_, _, exec_nop s⟩
  | pack => exact .inr ⟨_, _, exec_pack s⟩
  | unpack => exact .inr ⟨_, _, exec_unpack s⟩
  | divstep => exact .inr ⟨_, _, exec_divstep s⟩
  | convert => exact .inr ⟨_, _, exec_convert s⟩
  | incn => exact .inr ⟨_, _, exec_incn s⟩
  | movvn => exact .inr ⟨_, _, exec_movvn s⟩
  | clrerr => exact .inr ⟨_, _, exec_clrerr s⟩
  | srst => exact .inr ⟨_, _, exec_srst s⟩

/-- An instruction leaves the parameters, the reset input, the host's program and its index alone. -/
theorem samePort_of_exec {i : Instr} {s u : State} (h : exec i s = .next u) : SamePort s u := by
  obtain hb | ⟨b, x, hb⟩ := exec_cases i s
  · rw [hb, takeBusError_eq] at h
    cases h
    exact ⟨rfl, rfl, rfl, rfl⟩
  · rw [hb] at h
    cases h
    exact ⟨rfl, rfl, rfl, rfl⟩

/-- Settles O12, by the three things a step can do. -/
theorem stepKeepsParametersAndProgram : Obligations.StepKeepsParametersAndProgram := by
  intro s t h
  obtain ⟨-, rfl⟩ | ⟨-, rfl⟩ | ⟨w, u, -, -, hu, rfl⟩ := step_cases h
  · exact ⟨rfl, rfl, rfl⟩
  · exact ⟨rfl, rfl, rfl⟩
  · obtain ⟨hcfg, -, hprogram, hpc⟩ := samePort_of_exec hu
    exact ⟨hcfg, hprogram, congrArg (· + 1) hpc⟩

/-! ### The register window (R6, R39, R50) -/

/-- A byte address reaches an offset exactly when it is that far into the window. The window's 4096 bytes are the
2^12 offsets, so the distance survives the cast to 12 bits. -/
theorem windowOffset_eq_some (base address : Nat) (a : Offset) :
    windowOffset base address = some a ↔ base ≤ address ∧ address < base + 4096 ∧ address = base + a.toNat := by
  unfold windowOffset
  split
  case isTrue hin =>
    have hcast : BitVec.ofNat 12 (address - base) = a ↔ address - base = a.toNat := by
      rw [← BitVec.toNat_inj, BitVec.toNat_ofNat, Nat.mod_eq_of_lt (by omega)]
    rw [Option.some_inj, hcast]
    omega
  case isFalse hout =>
    constructor
    · intro h
      cases h
    · rintro ⟨hlow, hhigh, -⟩
      exact absurd ⟨hlow, hhigh⟩ hout

/-- BASE is 4096-aligned (R6). -/
theorem base_mod_window : Config.base % 4096 = 0 := Nat.mul_mod_right 4096 Config.basePage

/-- The address `BASE + a` reaches offset `a`. -/
theorem busOffset_base_add (a : Offset) : busOffset (Config.base + a.toNat) = some a := by
  have ha : a.toNat < 4096 := a.isLt
  exact (windowOffset_eq_some _ _ a).2 ⟨Nat.le_add_right .., Nat.add_lt_add_left ha _, rfl⟩

/-- Settles O27. -/
theorem windowIsPlacedAtBase : Obligations.WindowIsPlacedAtBase :=
  ⟨windowOffset_eq_some, base_mod_window, busOffset_base_add⟩

/-! ### The invariant after reset -/

/-- `Reset()` gives a block that fits its parameters, for any capacities (R20, R25, R33, R38, R159). -/
theorem resetBlock_inv (c : Config.Params) : (resetBlock c).Inv c := by
  have hw : (resetBlock c).w.length = c.maxw := List.length_replicate
  have hd : (resetBlock c).d.length = c.maxd := List.length_replicate
  have hv : (resetBlock c).v < 2 ^ (8 * c.maxw) := Nat.two_pow_pos _
  exact ⟨hw, hd, hv, Nat.zero_le 4, by simp⟩

/-- A machine with legal capacities meets the invariant right after reset: its program is empty, and its reset
input is released. -/
theorem State.resetWith_inv {c : Config.Params} (h : c.Legal) : (State.resetWith c).Inv :=
  ⟨h, resetBlock_inv c, Nat.le_refl 0, fun _ => rfl⟩

/-- R6's reference capacities are legal. -/
theorem reference_legal : Config.reference.Legal := by decide

/-- Settles O53: State.reset is the reset state at the reference capacities. -/
theorem invHoldsAtReset : Obligations.InvHoldsAtReset :=
  ⟨State.resetWith_inv reference_legal, fun _ => State.resetWith_inv⟩

end Sys2Proof.Machine
end

section
/-! The register map (spec/10_state.md R39 to R44): each register stands at its own offset, and what a read returns
after a write to the same and to another register. -/

namespace Sys2Proof.Machine

/-! ### Offsets and registers (R39) -/

/-- R55's alignment, as a number. -/
theorem aligned_iff_toNat_mod (a : Offset) : aligned a = true ↔ a.toNat % 4 = 0 := by
  rw [aligned, beq_iff_eq, ← BitVec.toNat_inj, BitVec.extractLsb'_toNat, Nat.shiftRight_zero]
  rfl

theorem toNat_offsetOf_d (j : Fin 256) : (offsetOf (.d j)).toNat = 0x400 + 4 * j.val := by
  have hj : j.val < 256 := j.isLt
  rw [offsetOf, BitVec.toNat_ofNat, Nat.mod_eq_of_lt (by omega)]

/-- A register stands at its offset. The 256 D registers are too many for `decide`: they take the map's tests one by
one. -/
theorem regAt_offsetOf (r : Reg) : regAt (offsetOf r) = r := by
  cases r with
  | n k => revert k; decide
  | w k => revert k; decide
  | v k => revert k; decide
  | d j =>
    have hj : j.val < 256 := j.isLt
    unfold regAt
    rw [toNat_offsetOf_d]
    dsimp only
    repeat rw [if_neg (by omega)]
    rw [if_pos (by omega), Nat.add_sub_cancel_left, Nat.mul_div_cancel_left _ (by decide), Fin.ofNat_val_eq_self]
  | _ => rfl

theorem aligned_offsetOf (r : Reg) : aligned (offsetOf r) = true := by
  cases r with
  | n k => revert k; decide
  | w k => revert k; decide
  | v k => revert k; decide
  | d j => rw [aligned_iff_toNat_mod, toNat_offsetOf_d]; omega
  | _ => rfl

/-- An aligned offset of a register that is not reserved is that register's only offset. -/
theorem offsetOf_regAt {a : Offset} (ha : aligned a = true) (hr : regAt a ≠ .reserved) : offsetOf (regAt a) = a := by
  rw [aligned_iff_toNat_mod] at ha
  apply BitVec.eq_of_toNat_eq
  revert hr
  fun_cases regAt a
  case case13 => exact fun h => absurd rfl h
  all_goals
    intro
    simp only [offsetOf, Fin.ofNat, BitVec.ofNat_eq_ofNat, BitVec.toNat_ofNat]
    omega

/-- Two aligned offsets of one register are equal, unless both are reserved. -/
theorem regAt_injOn_aligned {a a' : Offset} (ha : aligned a = true) (ha' : aligned a' = true)
    (hr : regAt a ≠ .reserved) (h : regAt a' = regAt a) : a' = a :=
  calc
    a' = offsetOf (regAt a') := (offsetOf_regAt ha' (h ▸ hr)).symm
    _ = offsetOf (regAt a) := by rw [h]
    _ = a := offsetOf_regAt ha hr

/-! ### Word transactions to a register -/

/-- A word access to an aligned offset is legal (R72). -/
theorem legalAccess_word {a : Offset} (ha : aligned a = true) : legalAccess .word a = true := by
  simp [legalAccess, ha]

/-- What a word read of a register's offset answers (R90). -/
theorem execRd_offsetOf (r : Reg) (s : State) :
    exec (.rd .word (offsetOf r)) s = .next (s.after s.block (readReg s.cfg s.block r)) := by
  rw [execRd_legal (legalAccess_word (aligned_offsetOf r)), regAt_offsetOf]

/-- What a word write to the offset of a register other than CMD does (R91). -/
theorem execWr_offsetOf {r : Reg} (hr : r ≠ .cmd) (x : Word) (s : State) :
    exec (.wr .word (offsetOf r) x) s = .next (s.after (writeReg s.cfg s.block x r) 0) := by
  rw [execWr_reg (legalAccess_word (aligned_offsetOf r)) (by rwa [regAt_offsetOf]), regAt_offsetOf]

/-! ### What a register write leaves unchanged -/

/-- A register write changes N, W, WLEN, RADIX and LEN at most (R91). -/
theorem writeReg_eq (c : Config.Params) (b : Block) (x : Word) (r : Reg) :
    writeReg c b x r = { b with
      n := (writeReg c b x r).n
      w := (writeReg c b x r).w
      wlen := (writeReg c b x r).wlen
      radix := (writeReg c b x r).radix
      len := (writeReg c b x r).len } := by
  cases r with
  | w k => rw [writeReg, writeW_eq]
  | _ => rfl

@[simp] theorem writeReg_v (c : Config.Params) (b : Block) (x : Word) (r : Reg) : (writeReg c b x r).v = b.v := by
  rw [writeReg_eq]

@[simp] theorem writeReg_rem (c : Config.Params) (b : Block) (x : Word) (r : Reg) :
    (writeReg c b x r).rem = b.rem := by
  rw [writeReg_eq]

@[simp] theorem writeReg_d (c : Config.Params) (b : Block) (x : Word) (r : Reg) : (writeReg c b x r).d = b.d := by
  rw [writeReg_eq]

@[simp] theorem writeReg_err (c : Config.Params) (b : Block) (x : Word) (r : Reg) :
    (writeReg c b x r).err = b.err := by
  rw [writeReg_eq]

@[simp] theorem writeReg_ign (c : Config.Params) (b : Block) (x : Word) (r : Reg) :
    (writeReg c b x r).ign = b.ign := by
  rw [writeReg_eq]

@[simp] theorem writeReg_w_length (c : Config.Params) (b : Block) (x : Word) (r : Reg) :
    (writeReg c b x r).w.length = b.w.length := by
  cases r with
  | w k => exact writeW_w_length c k x b
  | _ => rfl

/-! ### Reading a word back -/

/-- What N_j reads after a write to N_k (R43). -/
theorem readN_writeN (k j : Fin 4) (x : Word) (b : Block) :
    readN (writeN k x b) j = if j = k then x else readN b j := by
  apply BitVec.eq_of_getLsbD_eq
  intro i hi
  have hbit : (writeN k x b).n.getLsbD (32 * j.val + i) = _ := writeN_getLsbD k.val x b (by omega)
  rw [readN, BitVec.getLsbD_extractLsb', hbit]
  by_cases hjk : j = k
  · subst hjk
    simp [hi]
  · have hout : ¬(32 * k.val ≤ 32 * j.val + i ∧ 32 * j.val + i < 32 * k.val + 32) := by omega
    simp [hjk, hout, hi, readN]

/-- A W window write leaves every byte outside the window as it reads, whatever W's size. -/
theorem readByte_writeW_of_outside (c : Config.Params) {k i : Nat} (x : Word) (b : Block)
    (h : i < 4 * k ∨ 4 * k + 4 ≤ i) : readByte c (writeW c k x b) i = readByte c b i := by
  unfold writeW
  rw [readByte_writeByte_ne _ (by omega), readByte_writeByte_ne _ (by omega), readByte_writeByte_ne _ (by omega),
    readByte_writeByte_ne _ (by omega)]

/-- A write to W_k leaves what another W_j reads as it was (R40). -/
theorem readW_writeW_ne (c : Config.Params) {k j : Nat} (x : Word) (b : Block) (h : j ≠ k) :
    readW c (writeW c k x b) j = readW c b j := by
  unfold readW
  rw [readByte_writeW_of_outside _ _ _ (by omega), readByte_writeW_of_outside _ _ _ (by omega),
    readByte_writeW_of_outside _ _ _ (by omega), readByte_writeW_of_outside _ _ _ (by omega)]

/-- A write to a register leaves what every other register reads as it was (R35). -/
theorem readReg_writeReg_ne (c : Config.Params) (b : Block) (x : Word) {r r' : Reg} (h : r' ≠ r) :
    readReg c (writeReg c b x r) r' = readReg c b r' := by
  cases r with
  | n k =>
    cases r' with
    | n j => exact (readN_writeN k j x b).trans (if_neg fun hjk => h (congrArg Reg.n hjk))
    | _ => rfl
  | w k =>
    cases r' with
    | w j => exact readW_writeW_ne c x b fun hjk => h (congrArg Reg.w (Fin.ext hjk))
    | _ => rw [writeReg, writeW_eq]; rfl
  | wlen =>
    cases r' with
    | wlen => exact absurd rfl h
    | _ => rfl
  | radix =>
    cases r' with
    | radix => exact absurd rfl h
    | _ => rfl
  | len =>
    cases r' with
    | len => exact absurd rfl h
    | _ => rfl
  | _ => rfl

/-- A byte lane of four bytes put together is that byte (R52). -/
theorem lane_append (y : Nat → Byte) {m : Nat} (hm : m < 4) : lane (y 3 ++ y 2 ++ y 1 ++ y 0) m = y m := by
  apply BitVec.eq_of_getLsbD_eq
  intro i hi
  simp only [lane, BitVec.getLsbD_extractLsb', BitVec.getLsbD_append]
  interval_cases m
  · simp [hi]
  · simp [hi]
  · simp [hi, show ¬16 + i < 8 by omega, show 16 + i - 8 = 8 + i by omega]
  · simp [hi, show ¬24 + i < 8 by omega, show 24 + i - 8 = 16 + i by omega, show ¬16 + i < 8 by omega,
      show 16 + i - 8 = 8 + i by omega]

/-- Lane m of what W_k reads is byte `4k + m` (R40). -/
theorem lane_readW (c : Config.Params) (b : Block) (k : Nat) {m : Nat} (hm : m < 4) :
    lane (readW c b k) m = readByte c b (4 * k + m) :=
  lane_append (fun m => readByte c b (4 * k + m)) hm

/-! ### The statements about the register map -/

/-- Settles O22. -/
theorem nWordReadBack : Obligations.NWordReadBack := by
  intro k j x s
  have hread : readReg s.cfg (writeReg s.cfg s.block x (.n k)) (.n j) =
      if j = k then x else readN s.block j := readN_writeN k j x s.block
  refine ⟨_, execWr_offsetOf (r := .n k) (by simp) x s, fun i hi => writeN_getLsbD k.val x s.block hi, ?_⟩
  exact (execRd_offsetOf (.n j) _).trans (by rw [State.after_cfg, State.after_block, hread, readN])

/-- Settles O23. -/
theorem plainRegistersKeepWrittenValue : Obligations.PlainRegistersKeepWrittenValue := by
  intro x s
  exact ⟨execWr_offsetOf (r := .wlen) (by simp) x s, execWr_offsetOf (r := .radix) (by simp) x s,
    execWr_offsetOf (r := .len) (by simp) x s⟩

/-- Settles O24: the byte rule of a W window write, read once as the bytes of W and once through the lanes of W_k. -/
theorem wWindowReadBack : Obligations.WWindowReadBack := by
  intro k x s hl
  have hbyte (i : Nat) := readByte_writeW s.cfg k.val x s.block i hl
  refine ⟨_, execWr_offsetOf (r := .w k) (by simp) x s, writeW_eq s.cfg k.val x s.block,
    (writeW_w_length s.cfg k.val x s.block).trans hl, fun i hi => ?_, _, execRd_offsetOf (.w k) _, fun m hm => ?_⟩
  · simpa [readByte, hi, lane, writeReg] using hbyte i
  · refine (lane_readW s.cfg _ k.val hm).trans ((hbyte (4 * k.val + m)).trans ?_)
    by_cases hin : 4 * k.val + m < s.cfg.maxw
    · simp [hin, hm, lane]
    · simp [hin, readByte]

/-- Settles O25: offsets of different registers are kept apart by `readReg_writeReg_ne`; a write to a reserved offset
changes nothing at all (R57). -/
theorem writeLeavesOtherOffsetsAlone : Obligations.WriteLeavesOtherOffsetsAlone := by
  intro a a' x s hcmd hne ha ha'
  have hsame : readReg s.cfg (writeReg s.cfg s.block x (regAt a)) (regAt a') = readReg s.cfg s.block (regAt a') := by
    by_cases hr : regAt a = .reserved
    · rw [hr, writeReg]
    · exact readReg_writeReg_ne _ _ _ fun h => hne (regAt_injOn_aligned ha ha' hr h)
  refine ⟨_, _, execWr_reg (legalAccess_word ha) (fun h => hcmd (regAt_eq_cmd.1 h)) x s,
    execRd_legal (legalAccess_word ha') s, ?_⟩
  rw [execRd_legal (legalAccess_word ha'), State.after_cfg, State.after_block, hsame]

/-! ### WR128 (R80) -/

/-- Writing the four words of `v` to N0 to N3 leaves N = v, whatever N held, and nothing else changed (R43). -/
theorem writeN_four_words (v : Index) (b : Block) :
    writeN 3 (v.extractLsb' 96 32) (writeN 2 (v.extractLsb' 64 32) (writeN 1 (v.extractLsb' 32 32)
      (writeN 0 (v.extractLsb' 0 32) b))) = { b with n := v } := by
  refine congrArg (fun n => ({ b with n := n } : Block)) (BitVec.eq_of_getLsbD_eq fun i hi => ?_)
  refine (writeN_getLsbD 3 _ _ hi).trans ?_
  rw [writeN_getLsbD 2 _ _ hi, writeN_getLsbD 1 _ _ hi, writeN_getLsbD 0 _ _ hi]
  simp only [BitVec.getLsbD_extractLsb']
  split
  · simp [show 96 + (i - 32 * 3) = i by omega, show i - 32 * 3 < 32 by omega]
  · split
    · simp [show 64 + (i - 32 * 2) = i by omega, show i - 32 * 2 < 32 by omega]
    · split
      · simp [show 32 + (i - 32 * 1) = i by omega, show i - 32 * 1 < 32 by omega]
      · rw [if_pos (by omega)]
        simp [show i < 32 by omega]

theorem execAll_cons {i : Instr} {s t : State} (h : exec i s = .next t) (is : List Instr) :
    execAll (i :: is) s = execAll is t := by
  rw [execAll, h]

/-- Settles O55: four N writes in order. -/
theorem wr128WritesAllOfN : Obligations.Wr128WritesAllOfN := by
  intro v s
  simp only [expandPseudo, List.map, asmInstr, asmOffset]
  rw [execAll_cons (execWr_offsetOf (by simp) _ _), execAll_cons (execWr_offsetOf (by simp) _ _),
    execAll_cons (execWr_offsetOf (by simp) _ _), execAll_cons (execWr_offsetOf (by simp) _ _), execAll]
  exact ⟨_, rfl, writeN_four_words v s.block⟩

end Sys2Proof.Machine
end

section
/-! What one step can make of the block, and the rules that follow for every step: the invariant (spec/10_state.md R20,
R25; spec/60_exceptions.md R151, R159), who may change STATUS (R33), and who may change V, REM and D (R25, R28, R29). -/

namespace Sys2Proof.Machine

/-! ### What a transaction makes of the block -/

theorem block_of_execRd {size : Size} {a : Offset} {s u : State} (h : exec (.rd size a) s = .next u) :
    u.block = s.block := by
  cases hl : legalAccess size a with
  | true =>
    rw [execRd_legal hl] at h
    cases h
    rfl
  | false =>
    rw [execRd_illegal hl, takeBusError_eq] at h
    cases h
    rfl

/-- A write leaves the block alone (BusError), dispatches a command word, or writes a register (R91). -/
theorem block_of_execWr {size : Size} {a : Offset} {x : Word} {s u : State} (h : exec (.wr size a x) s = .next u) :
    u.block = s.block ∨
    (size = .word ∧ a = cmdOffset ∧ u.block = dispatchBlock s.cfg x s.block) ∨
    (∃ r, u.block = writeReg s.cfg s.block x r) := by
  cases hl : legalAccess size a with
  | false =>
    rw [execWr_illegal hl, takeBusError_eq] at h
    cases h
    exact .inl rfl
  | true =>
    by_cases hr : regAt a = .cmd
    · obtain rfl := regAt_eq_cmd.1 hr
      obtain ⟨rfl, -⟩ : size = .word ∧ aligned cmdOffset = true := by simpa [legalAccess] using hl
      rw [execWr_cmd, dispatch_eq] at h
      cases h
      exact .inr (.inl ⟨rfl, rfl, rfl⟩)
    · rw [execWr_reg hl hr] at h
      cases h
      exact .inr (.inr ⟨_, rfl⟩)

/-- Every request decodes to a read or a write (R71). -/
theorem decodeTxn_cases (t : TxnWord) :
    (∃ size a, decodeTxn t = .rd size a) ∨ ∃ size a x, decodeTxn t = .wr size a x := by
  unfold decodeTxn
  split
  · exact .inl ⟨_, _, rfl⟩
  · exact .inr ⟨_, _, _, rfl⟩

/-- Everything one step can make of the block: reset it, leave it alone, dispatch a command word that the host writes to
CMD, or write a register. -/
theorem step_block_cases {s t : State} (h : step s = .next t) :
    (nextEvent s = some .assertReset ∧ t.block = resetBlock s.cfg) ∨
    t.block = s.block ∨
    (∃ c, nextEvent s = some (.txn (cmdTxn c)) ∧ t.block = dispatchBlock s.cfg c s.block) ∨
    (∃ x r, t.block = writeReg s.cfg s.block x r) := by
  obtain ⟨he, rfl⟩ | ⟨-, rfl⟩ | ⟨w, u, he, -, hu, rfl⟩ := step_cases h
  · exact .inl ⟨he, rfl⟩
  · exact .inr (.inl rfl)
  · obtain ⟨size, a, hd⟩ | ⟨size, a, x, hd⟩ := decodeTxn_cases w
    · rw [hd] at hu
      have hb : u.block = s.block := block_of_execRd hu
      exact .inr (.inl hb)
    · obtain rfl := eq_encodeWr_of_decodeTxn hd
      rw [hd] at hu
      obtain hb | ⟨rfl, rfl, hb⟩ | ⟨r, hb⟩ := block_of_execWr hu
      · exact .inr (.inl hb)
      · exact .inr (.inr (.inl ⟨x, he, hb⟩))
      · exact .inr (.inr (.inr ⟨x, r, hb⟩))

/-- A step has an event to perform. -/
theorem pc_lt_of_step {s t : State} (h : step s = .next t) : s.pc < s.program.length := by
  by_contra hend
  rw [step, nextEvent_of_ended (Nat.le_of_not_lt hend)] at h
  cases h

/-- After a step the reset input is asserted only where the step asserted it, and then the block is at its reset
values: a transaction needs the input released (R182). -/
theorem resetBlock_of_step {s t : State} (h : step s = .next t) (hr : t.resetIn = true) :
    t.block = resetBlock t.cfg := by
  obtain ⟨-, rfl⟩ | ⟨-, rfl⟩ | ⟨w, u, -, hs, hu, rfl⟩ := step_cases h
  · rfl
  · cases hr
  · obtain ⟨-, hin, -, -⟩ := samePort_of_exec hu
    rw [State.advance_resetIn, hin, hs] at hr
    cases hr

/-! ### What a command body gives where it completes -/

theorem unpackBody_eq_ok {c : Config.Params} {b b' : Block} (h : unpackBody c b = .ok b') :
    b.wlen.toNat ≤ c.maxw ∧ b' = { b with v := leSum (readByte c b) b.wlen.toNat } := by
  by_cases hl : b.wlen.toNat ≤ c.maxw
  · cases (unpackBody_ok hl).symm.trans h
    exact ⟨hl, rfl⟩
  · cases (unpackBody_error (Nat.lt_of_not_le hl)).symm.trans h

theorem divstepBody_eq_ok {c : Config.Params} {b b' : Block} (h : divstepBody c b = .ok b') :
    b' = { b with rem := BitVec.ofNat 32 (b.v % b.radix.toNat), v := b.v / b.radix.toNat } := by
  by_cases hr : 2 ≤ b.radix.toNat
  · cases (divstepBody_ok hr).symm.trans h
    rfl
  · cases (divstepBody_error (Nat.lt_of_not_le hr)).symm.trans h

theorem convertBody_eq_ok {c : Config.Params} {b b' : Block} (h : convertBody c b = .ok b') :
    b.len.toNat ≤ c.maxd ∧ b' = { b with
      d := digitBuffer c b
      v := quotient b.radix.toNat b.len.toNat b.v
      rem := (digitBuffer c b).getD (b.len.toNat - 1) 0 } := by
  obtain ⟨-, he⟩ | ⟨-, -, he⟩ | ⟨-, -, he⟩ | ⟨-, -, hl, hc⟩ := convertBody_cases c b
  · cases he.symm.trans h
  · cases he.symm.trans h
  · cases he.symm.trans h
  · cases hc.symm.trans h
    exact ⟨hl, rfl⟩

theorem incnBody_eq_ok {c : Config.Params} {b b' : Block} (h : incnBody c b = .ok b') :
    b' = { b with n := BitVec.ofNat 128 (b.n.toNat + 1) } := by
  by_cases hn : b.n.toNat = 2 ^ 128 - 1
  · cases (incnBody_error hn).symm.trans h
  · cases (incnBody_ok hn).symm.trans h
    rfl

theorem movvnBody_eq_ok {c : Config.Params} {b b' : Block} (h : movvnBody c b = .ok b') :
    b' = { b with n := BitVec.ofNat 128 b.v } := by
  by_cases hv : b.v < 2 ^ 128
  · cases (movvnBody_ok hv).symm.trans h
    rfl
  · cases (movvnBody_error (Nat.le_of_not_lt hv)).symm.trans h

/-! ### The invariant -/

/-- A gated command keeps the block's invariant where its body does: an error it raises has a code of R151, and it sets
IGN only with an error pending (R159). -/
theorem gated_inv {c : Config.Params} {body : Body} {b : Block} (h : b.Inv c)
    (hok : ∀ b', body c b = .ok b' → b'.Inv c) : (gated c body b).Inv c := by
  obtain ⟨hw, hd, hv, herr, -⟩ := h
  obtain ⟨hp, hg⟩ | ⟨-, b', hb, hg⟩ | ⟨-, e, -, hg⟩ := gated_cases c body b
  · rw [hg]
    exact ⟨hw, hd, hv, herr, fun _ => hp⟩
  · rw [hg]
    exact hok b' hb
  · obtain ⟨hne, hle⟩ := errCode_bounds e
    rw [hg]
    exact ⟨hw, hd, hv, hle, fun _ => hne⟩

theorem packBody_inv {c : Config.Params} {b b' : Block} (h : b.Inv c) (hb : packBody c b = .ok b') : b'.Inv c := by
  obtain ⟨-, hrest⟩ := h
  cases hb
  exact ⟨packBytes_length c b.n, hrest⟩

/-- UNPACK sums at most MAXW bytes, so V fits its width (R105). -/
theorem unpackBody_inv {c : Config.Params} {b b' : Block} (h : b.Inv c) (hb : unpackBody c b = .ok b') : b'.Inv c := by
  obtain ⟨hw, hd, -, hflags⟩ := h
  obtain ⟨hl, rfl⟩ := unpackBody_eq_ok hb
  have hfit : (2 : Nat) ^ (8 * b.wlen.toNat) ≤ 2 ^ (8 * c.maxw) := Nat.pow_le_pow_right (by decide) (by omega)
  exact ⟨hw, hd, (leSum_lt (readByte c b) _).trans_le hfit, hflags⟩

/-- DIVSTEP's quotient is at most V. -/
theorem divstepBody_inv {c : Config.Params} {b b' : Block} (h : b.Inv c) (hb : divstepBody c b = .ok b') :
    b'.Inv c := by
  obtain ⟨hw, hd, hv, hflags⟩ := h
  obtain rfl := divstepBody_eq_ok hb
  exact ⟨hw, hd, (Nat.div_le_self _ _).trans_lt hv, hflags⟩

/-- CONVERT fills D to MAXD digits, and its quotient is at most V. -/
theorem convertBody_inv {c : Config.Params} {b b' : Block} (h : b.Inv c) (hb : convertBody c b = .ok b') :
    b'.Inv c := by
  obtain ⟨hw, -, hv, hflags⟩ := h
  obtain ⟨hl, rfl⟩ := convertBody_eq_ok hb
  have hq : quotient b.radix.toNat b.len.toNat b.v ≤ b.v := (quotient_eq _ _ _).trans_le (Nat.div_le_self _ _)
  exact ⟨hw, digitBuffer_length hl, hq.trans_lt hv, hflags⟩

theorem incnBody_inv {c : Config.Params} {b b' : Block} (h : b.Inv c) (hb : incnBody c b = .ok b') : b'.Inv c := by
  obtain rfl := incnBody_eq_ok hb
  exact h

theorem movvnBody_inv {c : Config.Params} {b b' : Block} (h : b.Inv c) (hb : movvnBody c b = .ok b') : b'.Inv c := by
  obtain rfl := movvnBody_eq_ok hb
  exact h

/-- CLRERR keeps the block's invariant: it clears ERR and IGN together (R141). -/
theorem returnFromError_inv {c : Config.Params} {b : Block} (h : b.Inv c) : (returnFromError b).Inv c := by
  obtain ⟨hw, hd, hv, -, -⟩ := h
  exact ⟨hw, hd, hv, Nat.zero_le 4, by simp⟩

/-- Every command word keeps the block's invariant. -/
theorem dispatchBlock_inv {c : Config.Params} {b : Block} (word : CmdWord) (h : b.Inv c) :
    (dispatchBlock c word b).Inv c := by
  unfold dispatchBlock
  cases decodeCommand word with
  | error e => exact gated_inv h fun b' hb => by cases hb
  | ok k =>
    cases k with
    | nop => exact h
    | pack => exact gated_inv h fun _ => packBody_inv h
    | unpack => exact gated_inv h fun _ => unpackBody_inv h
    | divstep => exact gated_inv h fun _ => divstepBody_inv h
    | convert => exact gated_inv h fun _ => convertBody_inv h
    | incn => exact gated_inv h fun _ => incnBody_inv h
    | movvn => exact gated_inv h fun _ => movvnBody_inv h
    | clrerr => exact returnFromError_inv h
    | srst => exact resetBlock_inv c

/-- A register write keeps the block's invariant: it keeps W's size, and D, V, ERR and IGN (R91). -/
theorem writeReg_inv {c : Config.Params} {b : Block} (x : Word) (r : Reg) (h : b.Inv c) :
    (writeReg c b x r).Inv c := by
  simpa only [Block.Inv, writeReg_w_length, writeReg_d, writeReg_v, writeReg_err, writeReg_ign] using h

/-- Every step keeps the block's invariant. -/
theorem block_inv_of_step {s t : State} (hs : s.block.Inv s.cfg) (h : step s = .next t) : t.block.Inv s.cfg := by
  obtain ⟨-, hb⟩ | hb | ⟨c, -, hb⟩ | ⟨x, r, hb⟩ := step_block_cases h
  · rw [hb]; exact resetBlock_inv s.cfg
  · rw [hb]; exact hs
  · rw [hb]; exact dispatchBlock_inv c hs
  · rw [hb]; exact writeReg_inv x r hs

/-- Settles O54, clause by clause: the parameters do not change, the block's part is `block_inv_of_step`, the index
moves on by the one event that was there, and the reset input's clause is `resetBlock_of_step`. -/
theorem stepKeepsInv : Obligations.StepKeepsInv := by
  rintro s t ⟨hlegal, hblock, -, -⟩ h
  obtain ⟨hcfg, hprogram, hpc⟩ := stepKeepsParametersAndProgram s t h
  refine ⟨hcfg ▸ hlegal, hcfg ▸ block_inv_of_step hblock h, ?_, resetBlock_of_step h⟩
  rw [hprogram, hpc]
  exact pc_lt_of_step h

/-! ### Who may change STATUS (R33) -/

/-- The transaction that issues a command word, as its 47 bits (R71, R80). -/
theorem cmdTxn_eq_or (c : CmdWord) : cmdTxn c = 0x600800000000 ||| c.setWidth 47 := by
  rw [cmdTxn, encodeWr, txnWord, BitVec.append_def]
  congr 1

/-- Settles O49: of what a step can do, a register write and a step that leaves the block alone keep ERR and IGN. -/
theorem onlyDispatchAndResetChangeFlags : Obligations.OnlyDispatchAndResetChangeFlags := by
  intro s t h hne
  obtain ⟨he, -⟩ | hb | ⟨c, he, -⟩ | ⟨x, r, hb⟩ := step_block_cases h
  · exact .inl he
  · simp [hb] at hne
  · exact .inr ⟨c, cmdTxn_eq_or c ▸ he⟩
  · simp [hb] at hne

/-! ### Who may change V, REM and D (R25, R28, R29) -/

/-- What a gated command leaves alone: whatever ERR and IGN do not touch and its body, where it completes, keeps. -/
theorem gated_keeps {α : Type} (f : Block → α) {c : Config.Params} {body : Body} {b : Block}
    (hign : f { b with ign := true } = f b) (herr : ∀ e, f { b with err := errCode e } = f b)
    (hok : ∀ b', body c b = .ok b' → f b' = f b) : f (gated c body b) = f b := by
  obtain ⟨-, hg⟩ | ⟨-, b', hb, hg⟩ | ⟨-, e, -, hg⟩ := gated_cases c body b
  · rw [hg, hign]
  · rw [hg, hok b' hb]
  · rw [hg, herr]

/-- The three result registers that no host write reaches (R25, R28, R29). -/
def Block.results (b : Block) : Nat × Word × List Word := (b.v, b.rem, b.d)

/-- A gated command keeps V, REM and D where its body does. -/
theorem gated_results {c : Config.Params} {body : Body} {b : Block}
    (hok : ∀ b', body c b = .ok b' → b'.results = b.results) : (gated c body b).results = b.results :=
  gated_keeps Block.results rfl (fun _ => rfl) hok

theorem gated_unpack_keeps (c : Config.Params) (b : Block) :
    (gated c unpackBody b).rem = b.rem ∧ (gated c unpackBody b).d = b.d := by
  constructor
  · exact gated_keeps (·.rem) rfl (fun _ => rfl) fun b' hb => by rw [(unpackBody_eq_ok hb).2]
  · exact gated_keeps (·.d) rfl (fun _ => rfl) fun b' hb => by rw [(unpackBody_eq_ok hb).2]

theorem gated_divstep_keeps (c : Config.Params) (b : Block) : (gated c divstepBody b).d = b.d :=
  gated_keeps (·.d) rfl (fun _ => rfl) fun b' hb => by rw [divstepBody_eq_ok hb]

/-- What each command word leaves of V, REM and D: UNPACK keeps REM and D, DIVSTEP keeps D, CONVERT and SRST may change
them all, and every other word keeps all three. -/
theorem dispatchBlock_results (c : Config.Params) (word : CmdWord) (b : Block) :
    (dispatchBlock c word b).results = b.results ∨
    (decodeCommand word = .ok .unpack ∧ (dispatchBlock c word b).rem = b.rem ∧ (dispatchBlock c word b).d = b.d) ∨
    (decodeCommand word = .ok .divstep ∧ (dispatchBlock c word b).d = b.d) ∨
    decodeCommand word = .ok .convert ∨
    decodeCommand word = .ok .srst := by
  unfold dispatchBlock
  cases decodeCommand word with
  | error e => exact .inl (gated_results fun b' hb => by cases hb)
  | ok k =>
    cases k with
    | nop => exact .inl rfl
    | pack => exact .inl (gated_results fun b' hb => by cases hb; rfl)
    | unpack => exact .inr (.inl ⟨rfl, gated_unpack_keeps c b⟩)
    | divstep => exact .inr (.inr (.inl ⟨rfl, gated_divstep_keeps c b⟩))
    | convert => exact .inr (.inr (.inr (.inl rfl)))
    | incn => exact .inl (gated_results fun b' hb => by rw [incnBody_eq_ok hb]; rfl)
    | movvn => exact .inl (gated_results fun b' hb => by rw [movvnBody_eq_ok hb]; rfl)
    | clrerr => exact .inl rfl
    | srst => exact .inr (.inr (.inr (.inr rfl)))

/-- Only the command's own word decodes to it (R76). -/
theorem eq_encodeCommand_of_decodeCommand {word : CmdWord} {k : Command} (h : decodeCommand word = .ok k) :
    word = encodeCommand k := by
  obtain ⟨hrsv, hop⟩ := (decodeCommand_eq_ok word k).1 h
  rw [← command_fields_append word, hrsv, hop]
  rfl

/-- What a step leaves of V, REM and D, by the event it performs. -/
theorem step_results_cases {s t : State} (h : step s = .next t) :
    t.block.results = s.block.results ∨
    nextEvent s = some .assertReset ∨
    (nextEvent s = some (.txn (cmdTxn (encodeCommand .unpack))) ∧
      t.block.rem = s.block.rem ∧ t.block.d = s.block.d) ∨
    (nextEvent s = some (.txn (cmdTxn (encodeCommand .divstep))) ∧ t.block.d = s.block.d) ∨
    nextEvent s = some (.txn (cmdTxn (encodeCommand .convert))) ∨
    nextEvent s = some (.txn (cmdTxn (encodeCommand .srst))) := by
  obtain ⟨he, -⟩ | hb | ⟨word, he, hb⟩ | ⟨x, r, hb⟩ := step_block_cases h
  · exact .inr (.inl he)
  · exact .inl (by rw [hb])
  · rw [hb]
    obtain hk | ⟨hk, hkeep⟩ | ⟨hk, hkeep⟩ | hk | hk := dispatchBlock_results s.cfg word s.block
    · exact .inl hk
    all_goals obtain rfl := eq_encodeCommand_of_decodeCommand hk
    · exact .inr (.inr (.inl ⟨he, hkeep⟩))
    · exact .inr (.inr (.inr (.inl ⟨he, hkeep⟩)))
    · exact .inr (.inr (.inr (.inr (.inl he))))
    · exact .inr (.inr (.inr (.inr (.inr he))))
  · exact .inl (by simp [hb, Block.results])

/-- The 47-bit requests that issue the commands of `step_results_cases`. -/
theorem cmdTxn_encodeCommand :
    cmdTxn (encodeCommand .unpack) = 0x600800000002 ∧ cmdTxn (encodeCommand .divstep) = 0x600800000003 ∧
    cmdTxn (encodeCommand .convert) = 0x600800000004 ∧ cmdTxn (encodeCommand .srst) = 0x6008000000FF := by
  decide

/-- Settles O50, event by event. -/
theorem onlyCommandsChangeResults : Obligations.OnlyCommandsChangeResults := by
  intro s t h
  obtain ⟨hunpack, hdivstep, hconvert, hsrst⟩ := cmdTxn_encodeCommand
  have hcases := step_results_cases h
  rw [hunpack, hdivstep, hconvert, hsrst, nextEvent] at hcases
  obtain hkeep | he | ⟨he, hrem, hd⟩ | ⟨he, hd⟩ | he | he := hcases
  · injection hkeep with hv hrest
    injection hrest with hrem hd
    simp [hv, hrem, hd]
  · simp [he]
  · simp [he, hrem, hd]
  · simp [he, hd]
  · simp [he]
  · simp [he]

/-! ### The decoded transaction, and the reset values -/

/-- Settles O6. -/
theorem stepRunsDecodedTransaction : Obligations.StepRunsDecodedTransaction := by
  intro s t he hr u hu
  have hnext : nextEvent s = some (.txn t) := he
  simp [step, hnext, hr, hu, advanceResult, advance]

/-- Settles O51: `Reset()` fills the two buffers with zeros up to their capacities. -/
theorem resetValues : Obligations.ResetValues := by
  have hw : ∀ i < State.reset.cfg.maxw, State.reset.block.w[i]? = some 0 := fun i hi =>
    List.getElem?_replicate_of_lt hi
  have hd : ∀ j < State.reset.cfg.maxd, State.reset.block.d[j]? = some 0 := fun j hj =>
    List.getElem?_replicate_of_lt hj
  exact ⟨rfl, hw, rfl, rfl, rfl, rfl, rfl, hd, rfl, rfl⟩

end Sys2Proof.Machine
end

section
/-! Memory rules of the register window (spec/20_memory.md): which transactions take BusError (R54 to R56), the one
response of each (R71, R192), idempotent accesses (R59), what lies beyond the capacities (R57), and the views of one
value through N, W and V (R51 to R53). -/

namespace Sys2Proof.Machine

/-! ### Legal and illegal transactions (R54 to R56) -/

theorem legalAccess_eq_true {size : Size} {a : Offset} :
    legalAccess size a = true ↔ size = .word ∧ a.extractLsb' 0 2 = 0 := by
  simp [legalAccess, aligned]

theorem legalAccess_eq_false {size : Size} {a : Offset} :
    legalAccess size a = false ↔ size ≠ .word ∨ a.extractLsb' 0 2 ≠ 0 := by
  rw [← Bool.not_eq_true, legalAccess_eq_true, not_and_or]

/-- A legal write completes, with RDATA 0 (R56, R71), whatever register it names. -/
theorem execWr_legal {size : Size} {a : Offset} (h : legalAccess size a = true) (x : Word) (s : State) :
    ∃ b, exec (.wr size a x) s = .next (s.after b 0) := by
  by_cases hr : regAt a = .cmd
  · obtain rfl := regAt_eq_cmd.1 hr
    obtain ⟨rfl, -⟩ := legalAccess_eq_true.1 h
    exact ⟨_, (execWr_cmd x s).trans (dispatch_eq x s)⟩
  · exact ⟨_, execWr_reg h hr x s⟩

/-- Settles O16, by the two sides of `legalAccess`. -/
theorem busErrorExactlyForIllegalAccess : Obligations.BusErrorExactlyForIllegalAccess := by
  intro size a x s
  constructor
  · intro hbad
    have hillegal := legalAccess_eq_false.2 hbad
    exact ⟨execRd_illegal hillegal s, execWr_illegal hillegal x s⟩
  · intro hsize halign
    have hlegal := legalAccess_eq_true.2 ⟨hsize, halign⟩
    exact ⟨⟨_, execRd_legal hlegal s⟩, execWr_legal hlegal x s⟩

/-! ### The response of a transaction (R71, R192) -/

/-- An ill-formed instruction takes BusError. -/
theorem exec_illFormed {i : Instr} (h : WellFormed i = false) (s : State) : exec i s = takeBusError s := by
  cases i with
  | rd size a => exact execRd_illegal h s
  | wr size a x => exact execWr_illegal h x s
  | _ => cases h

/-- A well-formed instruction completes with `err = 0`. -/
theorem exec_wellFormed {i : Instr} (h : WellFormed i = true) (s : State) :
    ∃ b x, exec i s = .next (s.after b x) := by
  cases i with
  | rd size a => exact ⟨_, _, execRd_legal h s⟩
  | wr size a x =>
    obtain ⟨b, hb⟩ := execWr_legal h x s
    exact ⟨b, 0, hb⟩
  | _ => exact ⟨_, _, rfl⟩

/-- An instruction answers one response, with `err = 1` exactly when it is ill-formed. -/
theorem response_of_exec {i : Instr} {s u : State} (h : exec i s = .next u) :
    ∃ r : Response, u.responses = s.responses ++ [r] ∧ (r.err = true ↔ WellFormed i = false) := by
  cases hwf : WellFormed i with
  | false =>
    rw [exec_illFormed hwf, takeBusError_eq] at h
    cases h
    exact ⟨_, rfl, by simp⟩
  | true =>
    obtain ⟨b, x, hb⟩ := exec_wellFormed hwf s
    cases hb.symm.trans h
    exact ⟨_, rfl, by simp⟩

/-- Settles O13, by the three things a step can do: only the last of them performs a transaction. -/
theorem everyTransactionIsAnswered : Obligations.EveryTransactionIsAnswered := by
  intro s t h
  obtain ⟨he, rfl⟩ | ⟨he, rfl⟩ | ⟨w, u, he, -, hu, rfl⟩ := step_cases h
  all_goals rw [nextEvent] at he
  · simp [he]
  · simp [he]
  · refine ⟨fun w' hw' => ?_, fun hno => absurd he (hno w)⟩
    obtain rfl : w = w' := by simpa [he] using hw'
    have hresponse := response_of_exec hu
    exact hresponse

/-! ### Idempotent accesses (R59) -/

theorem writeN_idem (k : Nat) (x : Word) (b : Block) : writeN k x (writeN k x b) = writeN k x b := by
  refine congrArg (fun n => ({ b with n := n } : Block)) (BitVec.eq_of_getLsbD_eq fun i hi => ?_)
  have htwice := writeN_getLsbD k x (writeN k x b) hi
  have honce := writeN_getLsbD k x b hi
  rw [honce] at htwice
  refine htwice.trans (Eq.trans ?_ honce.symm)
  split <;> rfl

theorem writeByte_idem (c : Config.Params) (i : Nat) (x : Byte) (b : Block) :
    writeByte c i x (writeByte c i x b) = writeByte c i x b := by
  unfold writeByte
  split <;> simp

/-- Writes of two different bytes of W commute. -/
theorem writeByte_comm (c : Config.Params) {i j : Nat} (x y : Byte) (b : Block) (h : i ≠ j) :
    writeByte c i x (writeByte c j y b) = writeByte c j y (writeByte c i x b) := by
  unfold writeByte
  by_cases hi : i < c.maxw <;> by_cases hj : j < c.maxw <;> simp [hi, hj, List.set_comm x y h]

/-- The four byte writes of the second W window write move, one by one, to the equal ones of the first. -/
theorem writeW_idem (c : Config.Params) (k : Nat) (x : Word) (b : Block) :
    writeW c k x (writeW c k x b) = writeW c k x b := by
  unfold writeW
  rw [writeByte_comm c (i := 4 * k) (j := 4 * k + 3) _ _ _ (by omega),
    writeByte_comm c (i := 4 * k) (j := 4 * k + 2) _ _ _ (by omega),
    writeByte_comm c (i := 4 * k) (j := 4 * k + 1) _ _ _ (by omega), writeByte_idem,
    writeByte_comm c (i := 4 * k + 1) (j := 4 * k + 3) _ _ _ (by omega),
    writeByte_comm c (i := 4 * k + 1) (j := 4 * k + 2) _ _ _ (by omega), writeByte_idem,
    writeByte_comm c (i := 4 * k + 2) (j := 4 * k + 3) _ _ _ (by omega), writeByte_idem, writeByte_idem]

theorem writeReg_idem (c : Config.Params) (b : Block) (x : Word) (r : Reg) :
    writeReg c (writeReg c b x r) x r = writeReg c b x r := by
  cases r with
  | n k => exact writeN_idem k x b
  | w k => exact writeW_idem c k x b
  | _ => rfl

/-- Two equal reads answer the same response twice and leave the block as it was. -/
theorem execRd_twice (size : Size) (a : Offset) (s : State) :
    ∃ t u r, exec (.rd size a) s = .next t ∧ exec (.rd size a) t = .next u ∧ t.block = s.block ∧ u.block = s.block ∧
      u.responses = s.responses ++ [r, r] := by
  cases hl : legalAccess size a with
  | true => exact ⟨_, _, _, execRd_legal hl s, execRd_legal hl _, rfl, rfl, List.append_assoc ..⟩
  | false => exact ⟨_, _, _, execRd_illegal hl s, execRd_illegal hl _, rfl, rfl, List.append_assoc ..⟩

/-- A write to any offset but CMD, repeated, leaves the block of the first. -/
theorem execWr_twice {a : Offset} (ha : a ≠ cmdOffset) (size : Size) (x : Word) (s : State) :
    ∃ t u, exec (.wr size a x) s = .next t ∧ exec (.wr size a x) t = .next u ∧ u.block = t.block := by
  have hr : regAt a ≠ .cmd := fun h => ha (regAt_eq_cmd.1 h)
  cases hl : legalAccess size a with
  | true =>
    exact ⟨_, _, execWr_reg hl hr x s, execWr_reg hl hr x _, writeReg_idem s.cfg s.block x (regAt a)⟩
  | false => exact ⟨_, _, execWr_illegal hl x s, execWr_illegal hl x _, rfl⟩

/-- Settles O21, with `cmdOffset` for 0x008. -/
theorem accessesAreIdempotent : Obligations.AccessesAreIdempotent := fun size a x s =>
  ⟨execRd_twice size a s, fun ha => execWr_twice ha size x s⟩

/-! ### Reserved offsets and registers beyond the capacities (R57) -/

/-- The registers of the map that a block with capacities `c` does not have: the reserved offsets, and the W, V and D
registers wholly beyond MAXW and MAXD. -/
def Reg.Absent (c : Config.Params) : Reg → Prop
  | .w k => c.maxw ≤ 4 * k.val
  | .v k => c.maxw ≤ 4 * k.val
  | .d j => c.maxd ≤ j.val
  | .reserved => True
  | _ => False

/-- A write to an absent register changes nothing. -/
theorem writeReg_absent {c : Config.Params} {r : Reg} (h : r.Absent c) (b : Block) (x : Word) :
    writeReg c b x r = b := by
  cases r with
  | w k =>
    have hk : c.maxw ≤ 4 * k.val := h
    rw [writeReg, writeW, writeByte_beyond _ _ (by omega), writeByte_beyond _ _ (by omega),
      writeByte_beyond _ _ (by omega), writeByte_beyond _ _ hk]
  | v k => rfl
  | d j => rfl
  | reserved => rfl
  | _ => exact absurd h id

theorem readW_beyond {c : Config.Params} (b : Block) {k : Nat} (h : c.maxw ≤ 4 * k) : readW c b k = 0 := by
  rw [readW, readByte_beyond _ (by omega), readByte_beyond _ (by omega), readByte_beyond _ (by omega),
    readByte_beyond _ h]
  rfl

/-- V is `8 * MAXW` bits wide (R25), so the V words beyond them read 0. -/
theorem readV_beyond {c : Config.Params} {b : Block} {k : Nat} (hv : b.v < 2 ^ (8 * c.maxw)) (h : c.maxw ≤ 4 * k) :
    readV b k = 0 := by
  have hlt : b.v < 2 ^ (32 * k) := hv.trans_le (Nat.pow_le_pow_right (by decide) (by omega))
  rw [readV_eq, Nat.div_eq_of_lt hlt]
  rfl

/-- An absent register reads 0. -/
theorem readReg_absent {c : Config.Params} {r : Reg} {b : Block} (h : r.Absent c) (hv : b.v < 2 ^ (8 * c.maxw)) :
    readReg c b r = 0 := by
  cases r with
  | w k => exact readW_beyond b h
  | v k => exact readV_beyond hv h
  | d j => exact if_neg (Nat.not_lt.2 h)
  | reserved => rfl
  | _ => exact absurd h id

/-- The offsets of R57 name absent registers: of the map's thirteen tests, those for W, V and D (10 to 12) leave a
register beyond its capacity, the last leaves the reserved offsets, and no other test accepts such an offset. -/
theorem regAt_absent {c : Config.Params} {a : Offset} (ha : aligned a = true)
    (h : (0x030 ≤ a.toNat ∧ a.toNat ≤ 0x0FC) ∨ (0x300 ≤ a.toNat ∧ a.toNat ≤ 0x3FC) ∨
      (0x800 ≤ a.toNat ∧ a.toNat ≤ 0xFFC) ∨
      (0x100 ≤ a.toNat ∧ a.toNat ≤ 0x1FC ∧ c.maxw ≤ a.toNat - 0x100) ∨
      (0x200 ≤ a.toNat ∧ a.toNat ≤ 0x2FC ∧ c.maxw ≤ a.toNat - 0x200) ∨
      (0x400 ≤ a.toNat ∧ a.toNat ≤ 0x7FC ∧ c.maxd ≤ (a.toNat - 0x400) / 4)) : (regAt a).Absent c := by
  rw [aligned_iff_toNat_mod] at ha
  fun_cases regAt a
  case case10 =>
    change c.maxw ≤ 4 * ((a.toNat - 0x100) / 4 % 64)
    omega
  case case11 =>
    change c.maxw ≤ 4 * ((a.toNat - 0x200) / 4 % 64)
    omega
  case case12 =>
    change c.maxd ≤ (a.toNat - 0x400) / 4 % 256
    omega
  case case13 => exact True.intro
  all_goals omega

/-- Settles O26: every offset in question names an absent register. -/
theorem reservedOffsetsReadZeroIgnoreWrites : Obligations.ReservedOffsetsReadZeroIgnoreWrites := by
  intro a x s ha hv hrange
  have habsent : (regAt a).Absent s.cfg := regAt_absent ha hrange
  have hcmd : regAt a ≠ .cmd := fun h => by rw [h] at habsent; exact habsent
  have hlegal := legalAccess_word ha
  constructor
  · rw [execRd_legal hlegal, readReg_absent habsent hv]
  · rw [execWr_reg hlegal hcmd, writeReg_absent habsent]

/-! ### The views of one value through N, W and V (R51 to R53) -/

/-- W_k reads the word whose byte lanes are its four bytes (R52). -/
theorem readW_eq_of_lanes {c : Config.Params} {b : Block} {k : Nat} {x : Word}
    (h : ∀ m < 4, readByte c b (4 * k + m) = lane x m) : readW c b k = x := by
  have h0 : readByte c b (4 * k) = lane x 0 := h 0 (by decide)
  rw [readW, h 3 (by decide), h 2 (by decide), h 1 (by decide), h0, lanes_append]

/-- Lane m of N_k is byte `4k + m` of N (R51, R52). -/
theorem lane_readN (b : Block) (k : Nat) {m : Nat} (hm : m < 4) : lane (readN b k) m = leByte b.n (4 * k + m) := by
  apply BitVec.eq_of_getLsbD_eq
  intro i hi
  simp [lane, readN, leByte, hi, show 8 * m + i < 32 by omega,
    show 32 * k + (8 * m + i) = 8 * (4 * k + m) + i by omega]

/-- Lane m of V_k is byte `4k + m` of V (R41, R52). -/
theorem toNat_lane_readV (b : Block) (k : Nat) {m : Nat} (hm : m < 4) :
    (lane (readV b k) m).toNat = b.v / 2 ^ (8 * (4 * k + m)) % 2 ^ 8 := by
  have hpow : (2 : Nat) ^ (8 * (4 * k + m)) = 2 ^ (32 * k) * 2 ^ (8 * m) := by
    rw [← pow_add]
    congr 1
    omega
  rw [lane, readV_eq, BitVec.extractLsb'_toNat, BitVec.toNat_ofNat, Nat.mod_mod, Nat.shiftRight_eq_div_pow, hpow,
    ← Nat.div_div_eq_div_mul]
  generalize b.v / 2 ^ (32 * k) = q
  interval_cases m <;> omega

/-- Byte i of a little-endian sum is the i-th byte summed (R12). -/
theorem leSum_div_mod (w : Nat → Byte) {i count : Nat} (h : i < count) :
    leSum w count / 2 ^ (8 * i) % 2 ^ 8 = (w i).toNat := by
  induction count with
  | zero => omega
  | succ j ih =>
    rw [leSum_succ]
    obtain rfl | hij : i = j ∨ i < j := by omega
    · rw [Nat.add_mul_div_right _ _ (Nat.two_pow_pos _), Nat.div_eq_of_lt (leSum_lt w i), Nat.zero_add]
      exact Nat.mod_eq_of_lt (w i).isLt
    · have hpow : (2 : Nat) ^ (8 * j) = 2 ^ (8 * (j - i - 1)) * 2 ^ 8 * 2 ^ (8 * i) := by
        rw [← pow_add, ← pow_add]
        congr 1
        omega
      rw [hpow, ← Nat.mul_assoc, Nat.add_mul_div_right _ _ (Nat.two_pow_pos _), ← Nat.mul_assoc,
        Nat.add_mul_mod_self_right, ih hij]

/-- After PACK, W_k reads what N_k reads. -/
theorem readW_packBytes {c : Config.Params} (hc : 16 ≤ c.maxw) (b : Block) {k : Nat} (hk : k < 4) :
    readW c { b with w := packBytes c b.n, wlen := 16 } k = readN b k := by
  apply readW_eq_of_lanes
  intro m hm
  have hin : 4 * k + m < c.maxw := by omega
  rw [readByte, if_pos hin, packBytes_getD c b.n hin, if_pos (by omega), lane_readN b k hm]

/-- A V that is the sum of at least 4k+4 bytes of W has, as its word V_k, what W_k reads. -/
theorem readV_leSum (c : Config.Params) (b : Block) {k count : Nat} (hk : 4 * k + 4 ≤ count) :
    readV { b with v := leSum (readByte c b) count } k = readW c b k := by
  refine (readW_eq_of_lanes fun m hm => BitVec.eq_of_toNat_eq ?_).symm
  rw [toNat_lane_readV _ k hm]
  exact (leSum_div_mod (readByte c b) (by omega)).symm

/-- Settles O35: neither command raises, since WLEN = 16 is at most MAXW (R6). -/
theorem mixedWidthViewsAgree : Obligations.MixedWidthViewsAgree := by
  rintro s k ⟨hmaxw, -⟩ herr
  constructor
  · refine ⟨_, exec_pack s, ?_⟩
    rw [State.after_block, gated_of_ok herr rfl]
    exact readW_packBytes hmaxw s.block k.isLt
  · intro hwlen
    have hcount : s.block.wlen.toNat = 16 := congrArg BitVec.toNat hwlen
    refine ⟨_, exec_unpack s, ?_⟩
    rw [State.after_block, gated_of_ok herr (unpackBody_ok (by omega))]
    exact readV_leSum s.cfg s.block (k := k.val) (by omega)

end Sys2Proof.Machine
end

section
/-! The encoding (spec/30_encoding.md R71 to R76): decoding and encoding undo each other, the command words and the legal
requests by their fields, and the step that runs a placed word. -/

namespace Sys2Proof.Machine

/-! ### Host transactions by their fields (R71) -/

/-- Every 47-bit request is the transaction of its four fields. -/
theorem txnWord_of_fields (t : TxnWord) :
    txnWord (writeField t) (sizeOfField (sizeField t)) (addrField t) (wdataField t) = t := by
  rw [txnWord, sizeBits_sizeOfField, fields_append]

theorem txnWord_inj {write write' : BitVec 1} {size size' : Size} {a a' : Offset} {x x' : Word} :
    txnWord write size a x = txnWord write' size' a' x' ↔ write = write' ∧ size = size' ∧ a = a' ∧ x = x' := by
  constructor
  · intro h
    obtain ⟨hwrite, hsize, ha, hx⟩ := txnWord_fields write size a x
    obtain ⟨hwrite', hsize', ha', hx'⟩ := txnWord_fields write' size' a' x'
    rw [h] at hwrite hsize ha hx
    have hbits : sizeBits size = sizeBits size' := hsize.symm.trans hsize'
    have hsizes : size = size' := by simpa using congrArg sizeOfField hbits
    exact ⟨hwrite.symm.trans hwrite', hsizes, ha.symm.trans ha', hx.symm.trans hx'⟩
  · rintro ⟨rfl, rfl, rfl, rfl⟩
    rfl

/-- A transaction's upper fields and its WDATA, as a number. -/
theorem toNat_txnWord (write : BitVec 1) (size : Size) (a : Offset) (x : Word) :
    (txnWord write size a x).toNat = (write ++ sizeBits size ++ a).toNat * 2 ^ 32 + x.toNat := by
  rw [txnWord, BitVec.toNat_append, ← Nat.shiftLeft_add_eq_or_of_lt x.isLt, Nat.shiftLeft_eq]

/-- Clearing WDATA clears the 32 low bits. -/
theorem toNat_txnWord_zero (write : BitVec 1) (size : Size) (a : Offset) (x : Word) :
    (txnWord write size a 0).toNat = (txnWord write size a x).toNat / 2 ^ 32 * 2 ^ 32 := by
  have hx : x.toNat < 2 ^ 32 := x.isLt
  have hzero : (0 : Word).toNat = 0 := rfl
  rw [toNat_txnWord, toNat_txnWord, hzero]
  omega

/-- WRITE is bit 46. -/
theorem getLsbD_txnWord (write : BitVec 1) (size : Size) (a : Offset) (x : Word) :
    (txnWord write size a x).getLsbD 46 = write.getLsbD 0 := by
  obtain ⟨hwrite, -⟩ := txnWord_fields write size a x
  simpa [writeField] using congrArg (·.getLsbD 0) hwrite

/-- Settles O2, by the WRITE bit: a write keeps all four fields, a read loses WDATA. -/
theorem encodeOfDecodedTransaction : Obligations.EncodeOfDecodedTransaction := by
  intro t
  obtain ⟨write, size, a, x, rfl⟩ : ∃ write size a x, txnWord write size a x = t := ⟨_, _, _, _, txnWord_of_fields t⟩
  rw [decodeTxn_txnWord, getLsbD_txnWord]
  obtain rfl | rfl := BitVec.eq_zero_or_eq_one write
  · exact toNat_txnWord_zero 0 size a x
  · rfl

/-! ### Legal transactions (R72) -/

/-- A request is well formed exactly when its SIZE and ADDR are legal. -/
theorem wellFormed_decodeTxn (t : TxnWord) :
    WellFormed (decodeTxn t) = legalAccess (sizeOfField (sizeField t)) (addrField t) := by
  unfold decodeTxn
  split <;> rfl

/-- R72's two conditions on the bits of a request. -/
theorem wellFormed_decodeTxn_iff (t : TxnWord) :
    WellFormed (decodeTxn t) = true ↔ t.extractLsb' 44 2 = 2 ∧ t.extractLsb' 32 2 = 0 := by
  have hsize : sizeOfField (sizeField t) = .word ↔ t.extractLsb' 44 2 = 2 := by
    constructor
    · intro h
      exact (sizeBits_sizeOfField (sizeField t)).symm.trans (congrArg sizeBits h)
    · intro h
      exact congrArg sizeOfField h
  have haddr : (addrField t).extractLsb' 0 2 = t.extractLsb' 32 2 := by
    apply BitVec.eq_of_getLsbD_eq
    intro i hi
    have hi12 : i < 12 := by omega
    simp [addrField, hi, hi12]
  rw [wellFormed_decodeTxn, legalAccess_eq_true, hsize, haddr]

/-- Settles O17: R72's condition is well-formedness, which decides the response. -/
theorem legalTransactionFields : Obligations.LegalTransactionFields := by
  intro t s
  split
  case isTrue hlegal =>
    have hwf := (wellFormed_decodeTxn_iff t).2 hlegal
    exact ⟨hwf, exec_wellFormed hwf s⟩
  case isFalse hillegal =>
    have hwf : WellFormed (decodeTxn t) = false := by
      rw [← Bool.not_eq_true, wellFormed_decodeTxn_iff]
      exact hillegal
    exact ⟨hwf, exec_illFormed hwf s⟩

/-! ### The transaction rows of the opcode table -/

/-- The table's mask keeps WRITE, SIZE and the two low bits of ADDR. -/
theorem txnWord_and_mask (write : BitVec 1) (size : Size) (a : Offset) (x : Word) :
    txnWord write size a x &&& 0x700300000000 = txnWord write size (a &&& 3) 0 := by
  have hmask : (0x700300000000 : BitVec (1 + 2 + 12 + 32)) =
      BitVec.allOnes 1 ++ BitVec.allOnes 2 ++ (3 : Offset) ++ (0 : Word) := rfl
  have hfields : (write ++ sizeBits size ++ a ++ x) &&& (0x700300000000 : BitVec (1 + 2 + 12 + 32)) =
      write ++ sizeBits size ++ (a &&& 3) ++ (0 : Word) := by
    rw [hmask, BitVec.and_append, BitVec.and_append, BitVec.and_append, BitVec.and_allOnes, BitVec.and_allOnes]
    exact congrArg _ BitVec.and_zero
  exact hfields

theorem and_three_eq_zero (a : Offset) : a &&& 3 = 0 ↔ a.extractLsb' 0 2 = 0 := by
  have hand : (a &&& 3).toNat = a.toNat % 4 := Nat.and_two_pow_sub_one_eq_mod a.toNat 2
  rw [← BitVec.toNat_inj, hand, ← BitVec.toNat_inj, BitVec.extractLsb'_toNat]
  rfl

/-- A request matches the row of RD (`write = 0`) or WR (`write = 1`) exactly when it has that WRITE bit and is
well formed. -/
theorem matches_row_iff (t : TxnWord) (write : BitVec 1) :
    t.toNat &&& 0x700300000000 = (txnWord write .word 0 0).toNat ↔
      writeField t = write ∧ WellFormed (decodeTxn t) = true := by
  have hmask := txnWord_and_mask (writeField t) (sizeOfField (sizeField t)) (addrField t) (wdataField t)
  rw [txnWord_of_fields] at hmask
  calc
    t.toNat &&& 0x700300000000 = (txnWord write .word 0 0).toNat
      ↔ t &&& 0x700300000000 = txnWord write .word 0 0 := by rw [← BitVec.toNat_inj, BitVec.toNat_and]; rfl
    _ ↔ writeField t = write ∧ sizeOfField (sizeField t) = .word ∧ addrField t &&& 3 = 0 := by
      rw [hmask, txnWord_inj, eq_self, and_true]
    _ ↔ writeField t = write ∧ WellFormed (decodeTxn t) = true := by
      rw [wellFormed_decodeTxn, legalAccess_eq_true, and_three_eq_zero]

/-- Settles O4: the two rows' match values are the transactions with SIZE 10 and everything but WRITE zero. -/
theorem wellFormedMatchesTableRow : Obligations.WellFormedMatchesTableRow := by
  intro t
  have hrd := matches_row_iff t 0
  have hwr := matches_row_iff t 1
  rw [show (txnWord 0 .word 0 0).toNat = 0x200000000000 from rfl] at hrd
  rw [show (txnWord 1 .word 0 0).toNat = 0x600000000000 from rfl] at hwr
  have hsize (hwf : WellFormed (decodeTxn t) = true) : sizeOfField (sizeField t) = .word := by
    rw [wellFormed_decodeTxn] at hwf
    exact (legalAccess_eq_true.1 hwf).1
  refine ⟨?_, fun h => ?_, fun h => ?_⟩
  · rw [hrd, hwr, ← or_and_right, and_iff_right (writeField_cases t)]
  · obtain ⟨hwrite, hwf⟩ := hrd.1 h
    rw [decodeTxn, if_pos hwrite, hsize hwf]
    rfl
  · obtain ⟨hwrite, hwf⟩ := hwr.1 h
    rw [decodeTxn, hwrite, if_neg (by decide), hsize hwf]
    rfl

/-! ### Command words (R73, R74, R76) -/

theorem decodeCommand_encodeCommand (k : Command) : decodeCommand (encodeCommand k) = .ok k :=
  (decodeCommand_eq_ok _ _).2 ⟨rsvField_append _ _, opField_append _ _⟩

/-- The only word of a command is its encoding. -/
theorem decodeCommand_eq_ok_iff (c : CmdWord) (k : Command) : decodeCommand c = .ok k ↔ c = encodeCommand k := by
  constructor
  · exact eq_encodeCommand_of_decodeCommand
  · rintro rfl
    exact decodeCommand_encodeCommand k

/-- R77's two ways of being Illegal. -/
theorem decodeCommand_eq_error_iff (c : CmdWord) :
    (∃ e, decodeCommand c = .error e) ↔ rsvField c ≠ 0 ∨ commandOfOp (opField c) = none := by
  unfold decodeCommand
  by_cases hrsv : rsvField c = 0
  · rw [if_pos hrsv]
    cases commandOfOp (opField c) <;> simp [hrsv]
  · rw [if_neg hrsv]
    exact ⟨fun _ => .inl hrsv, fun _ => ⟨_, rfl⟩⟩

/-- Settles O3: the nine words are the encodings of the nine commands. -/
theorem commandWordDecoding : Obligations.CommandWordDecoding := by
  intro c
  have hword := decodeCommand_eq_ok_iff c
  have hillegal := decodeCommand_eq_error_iff c
  rw [commandOfOp_eq_none] at hillegal
  exact ⟨hword .nop, hword .pack, hword .unpack, hword .divstep, hword .convert, hword .incn, hword .movvn,
    hword .clrerr, hword .srst, hillegal⟩

/-! ### Words of the opcode table's formats -/

/-- What a word that names an instruction is: a command's word of 32 bits, or a request of 47, or of 48 with bit 47
zero. -/
theorem decodeTableWord_eq_some {nbits w : Nat} {i : Instr} :
    decodeTableWord nbits w = some i ↔
      (nbits = 32 ∧ w < 2 ^ 32 ∧ ∃ k, decodeCommand (BitVec.ofNat 32 w) = .ok k ∧ k.toInstr = i) ∨
      ((nbits = 47 ∨ nbits = 48) ∧ w < 2 ^ 47 ∧ decodeTxn (BitVec.ofNat 47 w) = i) := by
  unfold decodeTableWord decodeWord
  by_cases hcmd : nbits = 32
  · subst hcmd
    rw [if_pos rfl]
    by_cases hw : w < 2 ^ 32
    · rw [if_pos hw]
      cases decodeCommand (BitVec.ofNat 32 w) <;> simp [hw, -Nat.reducePow]
    · simp [hw, -Nat.reducePow]
  · by_cases htxn : nbits = 47 ∨ nbits = 48
    · by_cases hw : w < 2 ^ 47 <;> simp [hcmd, htxn, hw, -Nat.reducePow]
    · simp [hcmd, htxn]

theorem decodeTableWord_encodeCommand (k : Command) :
    decodeTableWord 32 (encodeCommand k).toNat = some k.toInstr := by
  refine decodeTableWord_eq_some.2 (.inl ⟨rfl, (encodeCommand k).isLt, k, ?_, rfl⟩)
  rw [BitVec.ofNat_toNat, BitVec.setWidth_eq, decodeCommand_encodeCommand]

theorem decodeTableWord_txn (t : TxnWord) : decodeTableWord 48 t.toNat = some (decodeTxn t) := by
  refine decodeTableWord_eq_some.2 (.inr ⟨.inr rfl, t.isLt, ?_⟩)
  rw [BitVec.ofNat_toNat, BitVec.setWidth_eq]

/-- Settles O1, format by format. -/
theorem decodeOfEncode : Obligations.DecodeOfEncode := by
  intro i
  cases i with
  | rd size a => exact (decodeTableWord_txn _).trans (congrArg some (decodeTxn_txnWord 0 size a 0))
  | wr size a x => exact (decodeTableWord_txn _).trans (congrArg some (decodeTxn_txnWord 1 size a x))
  | nop => exact decodeTableWord_encodeCommand .nop
  | pack => exact decodeTableWord_encodeCommand .pack
  | unpack => exact decodeTableWord_encodeCommand .unpack
  | divstep => exact decodeTableWord_encodeCommand .divstep
  | convert => exact decodeTableWord_encodeCommand .convert
  | incn => exact decodeTableWord_encodeCommand .incn
  | movvn => exact decodeTableWord_encodeCommand .movvn
  | clrerr => exact decodeTableWord_encodeCommand .clrerr
  | srst => exact decodeTableWord_encodeCommand .srst

/-- Settles O5: the first six words are the encodings of their instructions, the last two have RSV not 0 and an
unassigned OP. -/
theorem writtenWordsDecode : Obligations.WrittenWordsDecode :=
  ⟨decodeOfEncode (.rd .word 0x00C), decodeOfEncode (.wr .word 0x010 0x03020100),
    decodeOfEncode (.wr .half 0x010 0x00000001), decodeOfEncode .nop, decodeOfEncode .convert, decodeOfEncode .srst,
    by decide, by decide⟩

/-! ### The step that runs a word (R70, R92) -/

/-- Writing a command's word to CMD runs the command. -/
theorem exec_cmdTxn {c : CmdWord} {k : Command} (h : decodeCommand c = .ok k) (s : State) :
    exec (decodeTxn (cmdTxn c)) s = exec k.toInstr s := by
  rw [decodeTxn_cmdTxn, execWr_cmd, dispatch_of_command h]

/-- The transaction that issues a word runs the instruction the word decodes to, for both formats. -/
theorem exec_portWord {nbits w : Nat} {i : Instr} (h : decodeTableWord nbits w = some i) (s : State) :
    exec (decodeTxn (portWord nbits w)) s = exec i s := by
  unfold portWord
  obtain ⟨hnbits, -, k, hk, rfl⟩ | ⟨hnbits, -, rfl⟩ := decodeTableWord_eq_some.1 h
  · rw [if_pos hnbits, exec_cmdTxn hk]
  · rw [if_neg (by omega)]

/-- Settles O7. -/
theorem stepRunsCommandWrittenToCmd : Obligations.StepRunsCommandWrittenToCmd := by
  intro s k u he hr hu
  rw [← cmdTxn_eq_or] at he
  rw [← exec_cmdTxn (decodeCommand_encodeCommand k)] at hu
  exact stepRunsDecodedTransaction s _ he hr u hu

/-- Settles O8: the placed event is the next one, and the reset input is released. -/
theorem stepRunsPlacedWord : Obligations.StepRunsPlacedWord := by
  intro s nbits w i h
  rw [step, nextEvent_withFetchWord, ← exec_portWord h]
  rfl

end Sys2Proof.Machine
end

section
/-! Host access (spec/40_host_access.md R90 to R92): every instruction completes, what a read returns and what a write
does at every offset of the window. -/

namespace Sys2Proof.Machine

/-! ### Every instruction completes (R92, R188) -/

/-- Settles O15: both answers of `exec_cases` are next states. -/
theorem everyInstructionCompletes : Obligations.EveryInstructionCompletes := by
  intro i s
  obtain ⟨t, ht⟩ : ∃ t, exec i s = .next t := by
    obtain hbus | ⟨b, x, hb⟩ := exec_cases i s
    · exact ⟨_, hbus.trans (takeBusError_eq s)⟩
    · exact ⟨_, hb⟩
  obtain ⟨r, hr, -⟩ := response_of_exec ht
  exact ⟨t, r, ht, samePort_of_exec ht, hr⟩

/-! ### Register values as numbers (R90) -/

/-- CFG as a number (R31). -/
theorem cfgWord_eq (c : Config.Params) :
    cfgWord c = BitVec.ofNat 32 (c.maxd % 2 ^ 8 * 2 ^ 8 + c.maxw % 2 ^ 8) := by
  apply BitVec.eq_of_toNat_eq
  simp only [cfgWord, BitVec.toNat_append, BitVec.toNat_ofNat, Nat.zero_mod, Nat.zero_shiftLeft, Nat.zero_or]
  rw [← Nat.shiftLeft_add_eq_or_of_lt (by omega), Nat.shiftLeft_eq]
  omega

/-- STATUS as a number (R33). -/
theorem statusWord_eq (b : Block) :
    statusWord b = BitVec.ofNat 32 ((if b.ign then 1 else 0) * 2 ^ 8 + b.err.toNat) := by
  have herr : b.err.toNat < 2 ^ 8 := b.err.isLt
  have hign : (if b.ign then 1 else 0) = b.ign.toNat := by cases b.ign <;> rfl
  have hbit : b.ign.toNat < 2 := b.ign.toNat_lt
  apply BitVec.eq_of_toNat_eq
  simp only [statusWord, BitVec.toNat_append, BitVec.toNat_ofNat, BitVec.toNat_ofBool, Nat.zero_mod,
    Nat.zero_shiftLeft, Nat.zero_or]
  rw [← Nat.shiftLeft_add_eq_or_of_lt herr, Nat.shiftLeft_eq, hign]
  omega

/-- N_k as a number, `o` bytes into N (R43). -/
theorem readN_eq (b : Block) {k o : Nat} (h : 4 * k = o) :
    readN b k = BitVec.ofNat 32 (b.n.toNat / 2 ^ (8 * o) % 2 ^ 32) := by
  apply BitVec.eq_of_toNat_eq
  simp [readN, BitVec.extractLsb'_toNat, Nat.shiftRight_eq_div_pow, show 8 * o = 32 * k by omega]

/-- V_k as a number, `o` bytes into V (R41). -/
theorem readV_eq_of_byte (b : Block) {k o : Nat} (h : 4 * k = o) :
    readV b k = BitVec.ofNat 32 (b.v / 2 ^ (8 * o) % 2 ^ 32) := by
  rw [readV_eq, show 32 * k = 8 * o by omega]

/-- A byte lane as a number (R52). -/
theorem lane_eq (x : Word) (m : Nat) : lane x m = BitVec.ofNat 8 (x.toNat / 2 ^ (8 * m)) := by
  apply BitVec.eq_of_toNat_eq
  simp [lane, BitVec.extractLsb'_toNat, Nat.shiftRight_eq_div_pow]

/-- The low byte of the written data, which WLEN and LEN keep (R44). -/
theorem lowByte_eq (x : Word) : x.extractLsb' 0 8 = BitVec.ofNat 8 (x.toNat % 2 ^ 8) := by
  apply BitVec.eq_of_toNat_eq
  simp [BitVec.extractLsb'_toNat]

/-- W_k as a number: the four bytes of W from `o` on, the first of them least significant (R40). -/
theorem readW_eq_sum (c : Config.Params) (b : Block) {k o : Nat} (h : 4 * k = o) :
    readW c b k = BitVec.ofNat 32 (∑ m ∈ Finset.range 4,
      (if o + m < c.maxw then (b.w.getD (o + m) 0).toNat else 0) * 2 ^ (8 * m)) := by
  have hbyte (m : Nat) : (if o + m < c.maxw then (b.w.getD (o + m) 0).toNat else 0) =
      (readByte c b (4 * k + m)).toNat := by
    rw [readByte, h]
    split <;> rfl
  have hsum : ∑ m ∈ Finset.range 4, (readByte c b (4 * k + m)).toNat * 2 ^ (8 * m) =
      leSum (fun m => readByte c b (4 * k + m)) 4 := by
    simp only [Finset.sum_range_succ, Finset.sum_range_zero, leSum_succ, leSum_zero]
  simp only [hbyte, hsum]
  refine readW_eq_of_lanes fun m hm => BitVec.eq_of_toNat_eq ?_
  rw [lane_eq, BitVec.toNat_ofNat, BitVec.toNat_ofNat, Nat.mod_eq_of_lt (leSum_lt _ 4), leSum_div_mod _ hm]

/-! ### Register writes by their place in N and W (R40, R43) -/

/-- A write to N_k, `o` bytes into N (R43). -/
theorem writeN_eq_of_byte (x : Word) (b : Block) {k o : Nat} (h : 4 * k = o) :
    writeN k x b = { b with
      n := (b.n &&& ~~~(0xFFFFFFFF#128 <<< (8 * o))) ||| (x.setWidth 128 <<< (8 * o)) } := by
  rw [writeN, show 32 * k = 8 * o by omega]

/-- A byte write as a map over W: outside W and from MAXW on it changes nothing. -/
theorem writeByte_w (c : Config.Params) (i : Nat) (x : Byte) (b : Block) :
    (writeByte c i x b).w = b.w.mapIdx fun j y => if j = i ∧ j < c.maxw then x else y := by
  apply List.ext_getElem
  · simp
  · intro j _ _
    by_cases hi : i < c.maxw
    · by_cases hj : j = i
      · subst hj
        simp [writeByte, hi]
      · simp [writeByte, hi, hj, List.getElem_set_ne (Ne.symm hj)]
    · have hout : ¬(j = i ∧ j < c.maxw) := by omega
      simp [writeByte_beyond x b (Nat.le_of_not_lt hi), hout]

/-- A write to W_k changes the four bytes of W from `o` on, where they exist, to the lanes of the data. -/
theorem writeW_eq_mapIdx (c : Config.Params) (x : Word) (b : Block) {k o : Nat} (h : 4 * k = o) :
    writeW c k x b = { b with w := b.w.mapIdx fun i y =>
      if o ≤ i ∧ i < o + 4 ∧ i < c.maxw then BitVec.ofNat 8 (x.toNat / 2 ^ (8 * (i - o))) else y } := by
  subst h
  rw [writeW_eq]
  refine congrArg (fun w => ({ b with w := w } : Block)) ?_
  simp only [writeW, writeByte_w, List.mapIdx_mapIdx]
  refine congrArg (List.mapIdx · b.w) (funext₂ fun i y => ?_)
  simp only [Function.comp]
  by_cases h : 4 * k ≤ i ∧ i < 4 * k + 4 ∧ i < c.maxw
  · obtain ⟨hlo, hhi, hmaxw⟩ := h
    obtain rfl | rfl | rfl | rfl : i = 4 * k ∨ i = 4 * k + 1 ∨ i = 4 * k + 2 ∨ i = 4 * k + 3 := by omega
    all_goals simp [hmaxw, lane_eq]
  · rw [if_neg h, if_neg (by omega), if_neg (by omega), if_neg (by omega), if_neg (by omega)]

/-! ### Legal accesses (R72) -/

/-- The condition of R56's BusError does not hold of a legal access. -/
theorem not_illegal_of_legalAccess {size : Size} {a : Offset} (h : legalAccess size a = true) :
    ¬(size ≠ .word ∨ a.extractLsb' 0 2 ≠ 0) := by
  rw [← legalAccess_eq_false, h]
  decide

theorem toNat_mod_of_legalAccess {size : Size} {a : Offset} (h : legalAccess size a = true) : a.toNat % 4 = 0 :=
  (aligned_iff_toNat_mod a).1 (beq_iff_eq.2 (legalAccess_eq_true.1 h).2)

/-! ### The rows of the register map (R39) -/

/-- In a family of `count` 32-bit registers from offset `base` on, the index that the map reads from an aligned offset
stands for the distance of the offset from `base`. -/
theorem four_mul_index {o base count : Nat} [NeZero count] (ho : o % 4 = 0) (hbase : base % 4 = 0)
    (h : base ≤ o ∧ o < base + 4 * count) : 4 * (Fin.ofNat count ((o - base) / 4)).val = o - base := by
  have hlt : (o - base) / 4 < count := by omega
  rw [Fin.val_ofNat, Nat.mod_eq_of_lt hlt]
  omega

/-- Two register tables whose first rows have one condition agree when the entries of these rows agree under it and the
rest agrees elsewhere. -/
theorem table_row {α : Type} {p : Prop} {_ : Decidable p} {x x' y y' : α} (hrow : p → x = x') (hrest : ¬p → y = y') :
    (if p then x else y) = if p then x' else y' :=
  ite_congr rfl hrow hrest

/-! ### The statements about RD and WR (R90, R91) -/

/-- Settles O18: the register map and R90's table have the same rows, and each register reads what its row says. -/
theorem readReturnsRegister : Obligations.ReadReturnsRegister := by
  intro size a s
  cases hl : legalAccess size a with
  | false => exact (execRd_illegal hl s).trans (if_pos (legalAccess_eq_false.1 hl)).symm
  | true =>
    have hmod : a.toNat % 4 = 0 := toNat_mod_of_legalAccess hl
    rw [execRd_legal hl, if_neg (not_illegal_of_legalAccess hl)]
    refine congrArg (fun x => Host.Outcome.next (s.after s.block x)) ?_
    simp only [regAt, apply_ite (readReg s.cfg s.block)]
    -- ID, CFG, CMD, STATUS
    refine table_row (fun _ => rfl) fun _ => ?_
    refine table_row (fun _ => cfgWord_eq s.cfg) fun _ => ?_
    refine table_row (fun _ => rfl) fun _ => ?_
    refine table_row (fun _ => statusWord_eq s.block) fun _ => ?_
    -- N, WLEN, RADIX, LEN, REM
    refine table_row (fun h => readN_eq _ (four_mul_index hmod rfl h)) fun _ => ?_
    refine table_row (fun _ => (BitVec.ofNat_toNat ..).symm) fun _ => ?_
    refine table_row (fun _ => rfl) fun _ => ?_
    refine table_row (fun _ => (BitVec.ofNat_toNat ..).symm) fun _ => ?_
    refine table_row (fun _ => rfl) fun _ => ?_
    -- W, V, D, and the reserved offsets
    refine table_row (fun h => readW_eq_sum _ _ (four_mul_index hmod rfl h)) fun _ => ?_
    refine table_row (fun h => readV_eq_of_byte _ (four_mul_index hmod rfl h)) fun _ => ?_
    refine table_row (fun h => ?_) fun _ => rfl
    have hindex : (Fin.ofNat 256 ((a.toNat - 0x400) / 4)).val = (a.toNat - 0x400) / 4 :=
      Nat.mod_eq_of_lt (by omega)
    rw [readReg, readD, hindex]

/-- Settles O19: the register map and R91's table are gone through together, row by row; the table has no row for a
register that ignores a write. -/
theorem writeUpdatesRegister : Obligations.WriteUpdatesRegister := by
  intro size a x s
  cases hl : legalAccess size a with
  | false => exact (execWr_illegal hl x s).trans (if_pos (legalAccess_eq_false.1 hl)).symm
  | true =>
    have hmod : a.toNat % 4 = 0 := toNat_mod_of_legalAccess hl
    rw [if_neg (not_illegal_of_legalAccess hl)]
    by_cases hcmd : a = cmdOffset
    · obtain ⟨rfl, -⟩ := legalAccess_eq_true.1 hl
      rw [hcmd]
      exact execWr_cmd x s
    · have hne : a.toNat ≠ 0x008 := fun h => hcmd (BitVec.eq_of_toNat_eq h)
      rw [execWr_reg hl (fun h => hcmd (regAt_eq_cmd.1 h))]
      refine Eq.trans ?_ (if_neg hne).symm
      refine congrArg (fun b => Host.Outcome.next (s.after b 0)) ?_
      simp only [regAt, apply_ite (writeReg s.cfg s.block x)]
      -- ID, CFG and STATUS ignore the write; CMD is dealt with
      refine ite_eq_iff'.2 ⟨fun h => by simp [h, writeReg], fun _ => ?_⟩
      refine ite_eq_iff'.2 ⟨fun h => by simp [h, writeReg], fun _ => ?_⟩
      refine ite_eq_iff'.2 ⟨fun h => absurd h hne, fun _ => ?_⟩
      refine ite_eq_iff'.2 ⟨fun h => by simp [h, writeReg], fun _ => ?_⟩
      -- N, WLEN, RADIX, LEN take it, REM ignores it
      refine table_row (fun h => writeN_eq_of_byte x _ (four_mul_index hmod rfl h)) fun _ => ?_
      refine table_row (fun _ => by rw [writeReg, lowByte_eq]) fun _ => ?_
      refine table_row (fun _ => rfl) fun _ => ?_
      refine table_row (fun _ => by rw [writeReg, lowByte_eq]) fun _ => ?_
      refine ite_eq_iff'.2 ⟨fun h => by simp [h, writeReg], fun _ => ?_⟩
      -- W takes it, V, D and the reserved offsets ignore it
      refine table_row (fun h => writeW_eq_mapIdx _ x _ (four_mul_index hmod rfl h)) fun _ => ?_
      simp only [writeReg, ite_self]

end Sys2Proof.Machine
end

section
/-! The integer codec (spec/41_codec.md R100 to R106): what each of its four commands answers with no error pending, and
the round trips between N and the bytes of W through V. -/

namespace Sys2Proof.Machine

/-! ### The four commands with no error pending (R157, R158) -/

theorem exec_pack_ok {s : State} (herr : s.block.err = 0) :
    exec .pack s = .next (s.after { s.block with w := packBytes s.cfg s.block.n, wlen := 16 } 0) := by
  rw [exec_pack, gated_of_ok herr rfl]

theorem exec_unpack_ok {s : State} (herr : s.block.err = 0) (hfit : s.block.wlen.toNat ≤ s.cfg.maxw) :
    exec .unpack s =
      .next (s.after { s.block with v := leSum (readByte s.cfg s.block) s.block.wlen.toNat } 0) := by
  rw [exec_unpack, gated_of_ok herr (unpackBody_ok hfit)]

theorem exec_unpack_error {s : State} (herr : s.block.err = 0) (hlong : s.cfg.maxw < s.block.wlen.toNat) :
    exec .unpack s = .next (s.after { s.block with err := errCode .length } 0) := by
  rw [exec_unpack, gated_of_error herr (unpackBody_error hlong)]

theorem exec_movvn_ok {s : State} (herr : s.block.err = 0) (hv : s.block.v < 2 ^ 128) :
    exec .movvn s = .next (s.after { s.block with n := BitVec.ofNat 128 s.block.v } 0) := by
  rw [exec_movvn, gated_of_ok herr (movvnBody_ok hv)]

theorem exec_movvn_error {s : State} (herr : s.block.err = 0) (hv : 2 ^ 128 ≤ s.block.v) :
    exec .movvn s = .next (s.after { s.block with err := errCode .range } 0) := by
  rw [exec_movvn, gated_of_error herr (movvnBody_error hv)]

theorem exec_incn_ok {s : State} (herr : s.block.err = 0) (hn : s.block.n.toNat ≠ 2 ^ 128 - 1) :
    exec .incn s = .next (s.after { s.block with n := BitVec.ofNat 128 (s.block.n.toNat + 1) } 0) := by
  rw [exec_incn, gated_of_ok herr (incnBody_ok hn)]

theorem exec_incn_error {s : State} (herr : s.block.err = 0) (hn : s.block.n.toNat = 2 ^ 128 - 1) :
    exec .incn s = .next (s.after { s.block with err := errCode .range } 0) := by
  rw [exec_incn, gated_of_error herr (incnBody_error hn)]

/-! ### Bytes of N, bytes of W and their sums -/

/-- `LEsum` as the sum that R12 writes. -/
theorem leSum_eq_sum (w : Nat → Byte) (count : Nat) :
    leSum w count = ∑ i ∈ Finset.range count, (w i).toNat * 2 ^ (8 * i) := by
  induction count with
  | zero => rfl
  | succ k ih => rw [leSum_succ, Finset.sum_range_succ, ih]

theorem readByte_of_lt {c : Config.Params} (b : Block) {i : Nat} (h : i < c.maxw) :
    readByte c b i = b.w.getD i 0 :=
  if_pos h

/-- After PACK, the first 16 bytes of W are those of N. -/
theorem readByte_packBytes {c : Config.Params} (b : Block) {i : Nat} (h16 : i < 16) (hi : i < c.maxw) :
    readByte c { b with w := packBytes c b.n, wlen := 16 } i = leByte b.n i := by
  rw [readByte_of_lt _ hi, packBytes_getD c b.n hi, if_pos h16]

/-- The sum of the 16 bytes that PACK writes is N. -/
theorem leSum_packBytes {c : Config.Params} (hc : 16 ≤ c.maxw) (b : Block) :
    leSum (readByte c { b with w := packBytes c b.n, wlen := 16 }) 16 = b.n.toNat :=
  calc
    leSum (readByte c { b with w := packBytes c b.n, wlen := 16 }) 16 = leSum (leByte b.n) 16 :=
      leSum_congr fun i hi => readByte_packBytes b hi (by omega)
    _ = b.n.toNat % 2 ^ (8 * 16) := leSum_leByte b.n 16
    _ = b.n.toNat := Nat.mod_eq_of_lt b.n.isLt

/-- The sum of at most 16 bytes fits N. -/
theorem leSum_lt_index (w : Nat → Byte) {count : Nat} (h : count ≤ 16) : leSum w count < 2 ^ 128 :=
  (leSum_lt w count).trans_le (Nat.pow_le_pow_right (by decide) (by omega))

/-- The bytes of an N that is the sum of at most 16 bytes are the bytes summed, then 0. -/
theorem leByte_leSum (w : Nat → Byte) {count : Nat} (h : count ≤ 16) (i : Nat) :
    leByte (BitVec.ofNat 128 (leSum w count)) i = if i < count then w i else 0 := by
  apply BitVec.eq_of_toNat_eq
  rw [leByte_toNat, BitVec.toNat_ofNat, Nat.mod_eq_of_lt (leSum_lt_index w h)]
  split
  case isTrue hi => exact leSum_div_mod w hi
  case isFalse hi =>
    have hbeyond : leSum w count < 2 ^ (8 * i) :=
      (leSum_lt w count).trans_le (Nat.pow_le_pow_right (by decide) (by omega))
    rw [Nat.div_eq_of_lt hbeyond]
    rfl

/-- What PACK makes of an N that is the sum of at most 16 bytes: these bytes, then 0. -/
theorem packBytes_leSum_getD (c : Config.Params) (w : Nat → Byte) {count i : Nat} (h : count ≤ 16)
    (hi : i < c.maxw) :
    (packBytes c (BitVec.ofNat 128 (leSum w count))).getD i 0 = if i < count then w i else 0 := by
  rw [packBytes_getD c _ hi, leByte_leSum w h, ite_eq_left_iff]
  intro h16
  rw [if_neg (by omega)]

/-! ### The statements about the commands (R100 to R103, R105) -/

/-- Settles O28. -/
theorem packGivesLittleEndianBytes : Obligations.PackGivesLittleEndianBytes := by
  intro s herr
  refine ⟨_, packBytes_length s.cfg s.block.n, fun i hi => ?_, exec_pack_ok herr⟩
  rw [packBytes_getD s.cfg s.block.n hi, apply_ite BitVec.toNat, leByte_toNat]
  rfl

/-- Settles O29, by R101's check: with WLEN at most MAXW every byte summed is a byte of W. -/
theorem unpackSumsBytes : Obligations.UnpackSumsBytes := by
  intro s herr
  by_cases hlong : s.block.wlen.toNat > s.cfg.maxw
  · rw [if_pos hlong]
    exact exec_unpack_error herr hlong
  · have hfit : s.block.wlen.toNat ≤ s.cfg.maxw := Nat.le_of_not_lt hlong
    have hsum : leSum (readByte s.cfg s.block) s.block.wlen.toNat =
        ∑ i ∈ Finset.range s.block.wlen.toNat, (s.block.w.getD i 0).toNat * 2 ^ (8 * i) := by
      rw [leSum_eq_sum]
      refine Finset.sum_congr rfl fun i hi => ?_
      rw [readByte_of_lt s.block ((Finset.mem_range.1 hi).trans_le hfit)]
    rw [if_neg hlong, exec_unpack_ok herr hfit, hsum]

/-- Settles O30. -/
theorem movvnChecksRange : Obligations.MovvnChecksRange :=
  fun _ herr => ⟨exec_movvn_ok herr, exec_movvn_error herr⟩

/-- Settles O31: below 2^128-1 the sum fits N's 128 bits. -/
theorem incnNeverWraps : Obligations.IncnNeverWraps := by
  intro s herr
  refine ⟨exec_incn_error herr, fun hn => ⟨_, ?_, exec_incn_ok herr hn⟩⟩
  have hlt : s.block.n.toNat < 2 ^ 128 := s.block.n.isLt
  rw [BitVec.toNat_ofNat, Nat.mod_eq_of_lt (by omega)]

/-- Settles O33. -/
theorem unpackedValueIsBounded : Obligations.UnpackedValueIsBounded := by
  intro s herr hfit
  exact ⟨_, exec_unpack_ok herr hfit, herr, leSum_lt (readByte s.cfg s.block) _⟩

/-! ### The round trips (R104, R106) -/

/-- Settles O32: PACK leaves WLEN = 16, which is at most MAXW (R6), and the sum of its bytes is N, below 2^128. -/
theorem packUnpackRoundTrip : Obligations.PackUnpackRoundTrip := by
  rintro s ⟨hmaxw, -⟩ herr
  have hv := leSum_packBytes hmaxw s.block
  refine ⟨_, _, _, exec_pack_ok herr, exec_unpack_ok herr hmaxw, hv, exec_movvn_ok herr ?_, ?_⟩
  · exact hv.trans_lt s.block.n.isLt
  · exact (congrArg (BitVec.ofNat 128) hv).trans (BitVec.ofNat_toNat ..)

/-- Settles O34: with WLEN at most 16, which is at most MAXW (R6), neither UNPACK nor MOVVN raises. -/
theorem unpackMovvnPackRestoresBytes : Obligations.UnpackMovvnPackRestoresBytes := by
  rintro s ⟨hmaxw, -⟩ herr hwlen
  have hfit : s.block.wlen.toNat ≤ s.cfg.maxw := hwlen.trans hmaxw
  rw [execAll_cons (exec_unpack_ok herr hfit), execAll_cons (exec_movvn_ok ?_ ?_), execAll_cons (exec_pack_ok ?_),
    execAll]
  · refine ⟨_, rfl, rfl, fun i hi => ?_⟩
    refine (packBytes_leSum_getD s.cfg (readByte s.cfg s.block) hwlen hi).trans ?_
    rw [readByte_of_lt s.block hi]
  · exact herr
  · exact herr
  · exact leSum_lt_index _ hwlen

end Sys2Proof.Machine
end

section
/-! The mixed-radix converter (spec/42_converter.md R120 to R125): what DIVSTEP and CONVERT answer with no error pending,
a run of DIVSTEPs, and the arithmetic of the digits. -/

namespace Sys2Proof.Machine

/-! ### DIVSTEP with no error pending (R120) -/

/-- The state that a DIVSTEP leaves where it succeeds (R120). -/
def State.divstepped (s : State) : State :=
  s.after { s.block with
    rem := BitVec.ofNat 32 (s.block.v % s.block.radix.toNat)
    v := s.block.v / s.block.radix.toNat } 0

@[simp] theorem State.divstepped_v (s : State) : s.divstepped.block.v = s.block.v / s.block.radix.toNat := rfl
@[simp] theorem State.divstepped_rem (s : State) :
    s.divstepped.block.rem = BitVec.ofNat 32 (s.block.v % s.block.radix.toNat) := rfl
@[simp] theorem State.divstepped_radix (s : State) : s.divstepped.block.radix = s.block.radix := rfl
@[simp] theorem State.divstepped_err (s : State) : s.divstepped.block.err = s.block.err := rfl

theorem exec_divstep_ok {s : State} (herr : s.block.err = 0) (hradix : 2 ≤ s.block.radix.toNat) :
    exec .divstep s = .next s.divstepped := by
  rw [exec_divstep, gated_of_ok herr (divstepBody_ok hradix), State.divstepped]

theorem exec_divstep_error {s : State} (herr : s.block.err = 0) (hradix : s.block.radix.toNat < 2) :
    exec .divstep s = .next (s.after { s.block with err := errCode .config } 0) := by
  rw [exec_divstep, gated_of_error herr (divstepBody_error hradix)]

/-! ### CONVERT with no error pending (R121) -/

theorem exec_convert_ok {s : State} (herr : s.block.err = 0) (hradix : 2 ≤ s.block.radix.toNat)
    (hlen : 1 ≤ s.block.len.toNat) (hfit : s.block.len.toNat ≤ s.cfg.maxd) :
    exec .convert s = .next (s.after { s.block with
      d := digitBuffer s.cfg s.block
      v := s.block.v / s.block.radix.toNat ^ s.block.len.toNat
      rem := (digitBuffer s.cfg s.block).getD (s.block.len.toNat - 1) 0 } 0) := by
  have hbody : convertBody s.cfg s.block = .ok { s.block with
      d := digitBuffer s.cfg s.block
      v := quotient s.block.radix.toNat s.block.len.toNat s.block.v
      rem := (digitBuffer s.cfg s.block).getD (s.block.len.toNat - 1) 0 } := by
    rw [convertBody, if_neg (Nat.not_lt.2 hradix), if_neg (Nat.ne_of_gt hlen), if_neg (Nat.not_lt.2 hfit)]
  rw [exec_convert, gated_of_ok herr hbody, quotient_eq]

theorem exec_convert_error {s : State} {e : ErrCode} (herr : s.block.err = 0)
    (hbody : convertBody s.cfg s.block = .error e) :
    exec .convert s = .next (s.after { s.block with err := errCode e } 0) := by
  rw [exec_convert, gated_of_error herr hbody]

/-! ### Digits as numbers -/

/-- A remainder modulo RADIX fits REM's and D's 32 bits, since RADIX does (R26). -/
theorem toNat_ofNat_mod_radix (v : Nat) {radix : Word} (h : 2 ≤ radix.toNat) :
    (BitVec.ofNat 32 (v % radix.toNat)).toNat = v % radix.toNat := by
  have hlt : v % radix.toNat < radix.toNat := Nat.mod_lt v (by omega)
  rw [BitVec.toNat_ofNat, Nat.mod_eq_of_lt (hlt.trans radix.isLt)]

theorem toNat_digitBuffer_getD (c : Config.Params) {b : Block} (hradix : 2 ≤ b.radix.toNat) {j : Nat}
    (hj : j < b.len.toNat) :
    ((digitBuffer c b).getD j 0).toNat = b.v / b.radix.toNat ^ j % b.radix.toNat := by
  rw [digitBuffer_getD_lt c hj, toNat_ofNat_mod_radix _ hradix]

/-- The first `count` base-`r` digits of a number and the quotient beyond them give it back. -/
theorem sum_digits_add_quotient (r v count : Nat) :
    (∑ j ∈ Finset.range count, v / r ^ j % r * r ^ j) + v / r ^ count * r ^ count = v := by
  induction count with
  | zero => simp
  | succ k ih =>
    have hsplit : v / r ^ k % r + v / r ^ (k + 1) * r = v / r ^ k := by
      rw [pow_succ, ← Nat.div_div_eq_div_mul, Nat.mod_add_div']
    calc (∑ j ∈ Finset.range (k + 1), v / r ^ j % r * r ^ j) + v / r ^ (k + 1) * r ^ (k + 1)
        = (∑ j ∈ Finset.range k, v / r ^ j % r * r ^ j) + (v / r ^ k % r + v / r ^ (k + 1) * r) * r ^ k := by
          rw [Finset.sum_range_succ, pow_succ]
          ring
      _ = v := by rw [hsplit, ih]

/-- The digit loop reads its dividend only modulo `radix ^ count` (R124). -/
theorem digits_mod_pow (radix count v : Nat) : digits radix count (v % radix ^ count) = digits radix count v := by
  induction count generalizing v with
  | zero => rfl
  | succ k ih =>
    rw [digits, digits, pow_succ', Nat.mod_mul_right_mod, Nat.mod_mul_right_div_self, ih]

theorem digitBuffer_congr {c c' : Config.Params} {b b' : Block} (hmaxd : c'.maxd = c.maxd)
    (hradix : b'.radix = b.radix) (hlen : b'.len = b.len)
    (hlow : b'.v % b.radix.toNat ^ b.len.toNat = b.v % b.radix.toNat ^ b.len.toNat) :
    digitBuffer c' b' = digitBuffer c b := by
  rw [digitBuffer, digitBuffer, hmaxd, hradix, hlen, ← digits_mod_pow, hlow, digits_mod_pow]

/-! ### Successive DIVSTEPs (R122) -/

/-- The state after `j` successive DIVSTEPs. -/
def State.divsteps (s : State) : Nat → State
  | 0 => s
  | j + 1 => (s.divsteps j).divstepped

/-- The steps divide V again and again by the same RADIX, and none raises an error. -/
theorem divsteps_block (s : State) (j : Nat) :
    (s.divsteps j).block.radix = s.block.radix ∧ (s.divsteps j).block.err = s.block.err ∧
      (s.divsteps j).block.v = s.block.v / s.block.radix.toNat ^ j := by
  induction j with
  | zero => simp [State.divsteps]
  | succ j ih =>
    obtain ⟨hradix, herr, hv⟩ := ih
    refine ⟨hradix, herr, ?_⟩
    rw [State.divsteps, State.divstepped_v, hradix, hv, Nat.div_div_eq_div_mul, pow_succ]

theorem exec_divstep_divsteps {s : State} (herr : s.block.err = 0) (hradix : 2 ≤ s.block.radix.toNat) (j : Nat) :
    exec .divstep (s.divsteps j) = .next (s.divsteps (j + 1)) := by
  obtain ⟨hr, he, -⟩ := divsteps_block s j
  exact exec_divstep_ok (he.trans herr) (hr ▸ hradix)

/-- The (j+1)-th DIVSTEP leaves the j-th digit of the dividend in REM. -/
theorem divsteps_rem (c : Config.Params) {s : State} {j : Nat} (hj : j < s.block.len.toNat) :
    (s.divsteps (j + 1)).block.rem = (digitBuffer c s.block).getD j 0 := by
  obtain ⟨hradix, -, hv⟩ := divsteps_block s j
  rw [State.divsteps, State.divstepped_rem, hradix, hv, digitBuffer_getD_lt c hj]

/-! ### The statements about DIVSTEP and CONVERT -/

/-- Settles O36. -/
theorem divstepQuotientAndRemainder : Obligations.DivstepQuotientAndRemainder := fun s herr =>
  ⟨exec_divstep_error herr, fun hradix =>
    ⟨_, toNat_ofNat_mod_radix s.block.v hradix, exec_divstep_ok herr hradix⟩⟩

/-- Settles O37, by R121's checks in their order. -/
theorem convertExtractsDigits : Obligations.ConvertExtractsDigits := by
  intro s herr
  obtain ⟨hradix, hbody⟩ | ⟨hradix, hlen, hbody⟩ | ⟨hradix, hlong, hbody⟩ | ⟨hradix, hlen, hfit, -⟩ :=
    convertBody_cases s.cfg s.block
  · rw [if_pos hradix]
    exact exec_convert_error herr hbody
  · rw [if_neg (by omega), if_pos hlen]
    exact exec_convert_error herr hbody
  · rw [if_neg (by omega), if_neg (by omega), if_pos hlong]
    exact exec_convert_error herr hbody
  · rw [if_neg (by omega), if_neg (by omega), if_neg (by omega)]
    exact ⟨_, digitBuffer_length hfit, fun j hj => toNat_digitBuffer_getD s.cfg hradix hj,
      fun j hj => digitBuffer_getD_ge s.cfg hj, exec_convert_ok herr hradix hlen hfit⟩

/-- Settles O38: the run of DIVSTEPs from `s`, whose (j+1)-th REM is D[j]. -/
theorem convertIsLenDivsteps : Obligations.ConvertIsLenDivsteps := by
  intro s herr hradix hlen hfit
  obtain ⟨-, -, hv⟩ := divsteps_block s s.block.len.toNat
  have hlast : (s.divsteps s.block.len.toNat).block.rem =
      (digitBuffer s.cfg s.block).getD (s.block.len.toNat - 1) 0 := by
    have h := divsteps_rem s.cfg (s := s) (j := s.block.len.toNat - 1) (by omega)
    rwa [Nat.sub_add_cancel hlen] at h
  exact ⟨_, s.divsteps, exec_convert_ok herr hradix hlen hfit, rfl,
    fun j hj => ⟨exec_divstep_divsteps herr hradix j, (divsteps_rem s.cfg hj).symm⟩, hv.symm, hlast.symm⟩

/-- Settles O39: D holds the base-RADIX digits of the dividend, which with the quotient give it back. -/
theorem convertReconstructsDividend : Obligations.ConvertReconstructsDividend := by
  intro s herr hradix hlen hfit
  have hdigit : ∀ j < s.block.len.toNat, ((digitBuffer s.cfg s.block).getD j 0).toNat =
      s.block.v / s.block.radix.toNat ^ j % s.block.radix.toNat :=
    fun _ hj => toNat_digitBuffer_getD s.cfg hradix hj
  refine ⟨_, exec_convert_ok herr hradix hlen hfit, ?_, fun j hj => ?_, rfl⟩
  · refine (sum_digits_add_quotient s.block.radix.toNat s.block.v s.block.len.toNat).symm.trans ?_
    congr 1
    exact Finset.sum_congr rfl fun j hj => by rw [← hdigit j (Finset.mem_range.1 hj), State.after_block]
  · exact (hdigit j hj).trans_lt (Nat.mod_lt _ (by omega))

/-- Settles O40: equal low parts of the dividends give equal digit buffers. -/
theorem digitsDependOnlyOnLowPart : Obligations.DigitsDependOnlyOnLowPart := by
  intro s s' herr herr' hmaxd hr hl hradix hlen hfit hlow
  exact ⟨_, _, exec_convert_ok herr hradix hlen hfit,
    exec_convert_ok herr' (hr ▸ hradix) (hl ▸ hlen) (hl ▸ hmaxd ▸ hfit), digitBuffer_congr hmaxd hr hl hlow⟩

/-- Settles O41: quotient, remainder and digit buffer are computed from V, RADIX, LEN and MAXD. -/
theorem converterIsDeterministic : Obligations.ConverterIsDeterministic := by
  intro s s' herr herr' hmaxd hv hr hl hradix
  have hradix' : 2 ≤ s'.block.radix.toNat := hr ▸ hradix
  constructor
  · refine ⟨_, _, exec_divstep_ok herr hradix, exec_divstep_ok herr' hradix', ?_, ?_⟩
    · rw [State.divstepped_v, State.divstepped_v, hv, hr]
    · rw [State.divstepped_rem, State.divstepped_rem, hv, hr]
  · intro hlen hfit
    have hd : digitBuffer s'.cfg s'.block = digitBuffer s.cfg s.block := digitBuffer_congr hmaxd hr hl (by rw [hv])
    refine ⟨_, _, exec_convert_ok herr hradix hlen hfit,
      exec_convert_ok herr' hradix' (hl ▸ hlen) (hl ▸ hmaxd ▸ hfit), hd, ?_, ?_⟩
    · simp only [State.after_block, hv, hr, hl]
    · simp only [State.after_block, hd, hl]

end Sys2Proof.Machine
end

section
/-! The control commands and Illegal command words (spec/43_control.md R140, R141, R143): what a command's word and an
Illegal word do when the host writes them to CMD. -/

namespace Sys2Proof.Machine

/-! ### Illegal words (R143) -/

/-- Both ways of being Illegal are dispatched as one gated command that raises ILLEGAL and writes nothing. -/
theorem execWr_illegalWord {c : CmdWord} {e : DecodeError} (h : decodeCommand c = .error e) (s : State) :
    exec (.wr .word cmdOffset c) s =
      .next (s.after (gated s.cfg (fun _ _ => .error .illegal) s.block) 0) := by
  rw [execWr_cmd, dispatch_eq, dispatchBlock, h]

/-- A gated command that always raises: the code with no error pending, and IGN otherwise (R157, R158). -/
theorem gated_error_eq (c : Config.Params) (e : ErrCode) (b : Block) :
    gated c (fun _ _ => .error e) b = if b.err = 0 then { b with err := errCode e } else { b with ign := true } := by
  split
  · next herr => exact gated_of_error herr rfl
  · next herr => exact gated_of_pending herr

/-! ### The statements about the control commands -/

/-- Settles O45: an Illegal word is a gated command that always raises ILLEGAL. -/
theorem illegalWordRaisesIllegal : Obligations.IllegalWordRaisesIllegal := by
  intro c s hbad
  obtain ⟨-, -, -, -, -, -, -, -, -, hillegal⟩ := commandWordDecoding c
  obtain ⟨e, he⟩ := hillegal.2 hbad
  exact (execWr_illegalWord he s).trans (by rw [gated_error_eq, errCode])

/-- Settles O42: the word 0 is NOP's, and a word with RSV not 0 is Illegal whatever its OP. -/
theorem nopChangesNothing : Obligations.NopChangesNothing := by
  intro s
  have hword : exec (.wr .word cmdOffset (encodeCommand .nop)) s = .next (s.after s.block 0) :=
    (execWr_cmd _ s).trans (dispatch_of_command (decodeCommand_encodeCommand .nop) s)
  refine ⟨exec_nop s, hword, fun r hr => (decodeCommand_eq_error_iff _).2 (.inl ?_)⟩
  rwa [rsvField_append]

/-- Settles O43: CLRERR is the return from an error, and that clears the two flags. -/
theorem clrerrClearsErrAndIgn : Obligations.ClrerrClearsErrAndIgn := by
  intro s
  rw [exec_clrerr, returnFromError, clearFlags]

end Sys2Proof.Machine
end

section
/-! Command errors (spec/60_exceptions.md R151, R157 to R161): Dispatch in its order, the gate that a pending error puts
before a command, and precise and sticky errors. -/

namespace Sys2Proof.Machine

/-! ### The gated commands and their bodies (R157) -/

/-- The body that Dispatch runs behind its gate, for the six commands that it gates. -/
def gatedBody : Instr → Option Body
  | .pack => some packBody
  | .unpack => some unpackBody
  | .divstep => some divstepBody
  | .convert => some convertBody
  | .incn => some incnBody
  | .movvn => some movvnBody
  | _ => none

theorem gatedBody_of_mem {i : Instr} (h : i ∈ [Instr.pack, .unpack, .movvn, .incn, .divstep, .convert]) :
    ∃ body, gatedBody i = some body := by
  simp only [List.mem_cons, List.not_mem_nil, or_false] at h
  obtain rfl | rfl | rfl | rfl | rfl | rfl := h <;> exact ⟨_, rfl⟩

theorem exec_of_gatedBody {i : Instr} {body : Body} (h : gatedBody i = some body) (s : State) :
    exec i s = .next (s.after (gated s.cfg body s.block) 0) := by
  cases i <;> cases h <;> rfl

/-! ### What a body raises, and that it leaves ERR alone where it completes (R151, R158) -/

theorem unpackBody_eq_error {c : Config.Params} {b : Block} {e : ErrCode} (h : unpackBody c b = .error e) :
    e = .length := by
  by_cases hl : b.wlen.toNat ≤ c.maxw
  · cases (unpackBody_ok hl).symm.trans h
  · cases (unpackBody_error (Nat.lt_of_not_le hl)).symm.trans h
    rfl

theorem divstepBody_eq_error {c : Config.Params} {b : Block} {e : ErrCode} (h : divstepBody c b = .error e) :
    e = .config := by
  by_cases hr : 2 ≤ b.radix.toNat
  · cases (divstepBody_ok hr).symm.trans h
  · cases (divstepBody_error (Nat.lt_of_not_le hr)).symm.trans h
    rfl

theorem convertBody_eq_error {c : Config.Params} {b : Block} {e : ErrCode} (h : convertBody c b = .error e) :
    e = .config ∨ e = .length := by
  obtain ⟨-, he⟩ | ⟨-, -, he⟩ | ⟨-, -, he⟩ | ⟨-, -, -, hok⟩ := convertBody_cases c b
  · cases he.symm.trans h
    exact .inl rfl
  · cases he.symm.trans h
    exact .inl rfl
  · cases he.symm.trans h
    exact .inr rfl
  · cases hok.symm.trans h

theorem incnBody_eq_error {c : Config.Params} {b : Block} {e : ErrCode} (h : incnBody c b = .error e) :
    e = .range := by
  by_cases hn : b.n.toNat = 2 ^ 128 - 1
  · cases (incnBody_error hn).symm.trans h
    rfl
  · cases (incnBody_ok hn).symm.trans h

theorem movvnBody_eq_error {c : Config.Params} {b : Block} {e : ErrCode} (h : movvnBody c b = .error e) :
    e = .range := by
  by_cases hv : b.v < 2 ^ 128
  · cases (movvnBody_ok hv).symm.trans h
  · cases (movvnBody_error (Nat.le_of_not_lt hv)).symm.trans h
    rfl

/-- A gated command that completes leaves ERR as it was. -/
theorem err_of_gatedBody_ok {i : Instr} {body : Body} {c : Config.Params} {b b' : Block}
    (h : gatedBody i = some body) (hok : body c b = .ok b') : b'.err = b.err := by
  cases i with
  | pack => cases h; cases hok; rfl
  | unpack => cases h; rw [(unpackBody_eq_ok hok).2]
  | divstep => cases h; rw [divstepBody_eq_ok hok]
  | convert => cases h; rw [(convertBody_eq_ok hok).2]
  | incn => cases h; rw [incnBody_eq_ok hok]
  | movvn => cases h; rw [movvnBody_eq_ok hok]
  | _ => cases h

/-- A gated command raises RANGE, CONFIG or LENGTH, and PACK raises nothing. -/
theorem errCode_of_gatedBody_error {i : Instr} {body : Body} {c : Config.Params} {b : Block} {e : ErrCode}
    (h : gatedBody i = some body) (herror : body c b = .error e) :
    (errCode e).toNat ∈ [1, 2, 3] ∧ i ≠ .pack := by
  cases i with
  | pack => cases h; cases herror
  | unpack => cases h; rw [unpackBody_eq_error herror]; decide
  | divstep => cases h; rw [divstepBody_eq_error herror]; decide
  | convert =>
    cases h
    obtain rfl | rfl := convertBody_eq_error herror <;> decide
  | incn => cases h; rw [incnBody_eq_error herror]; decide
  | movvn => cases h; rw [movvnBody_eq_error herror]; decide
  | _ => cases h

/-- Settles O46: of the three things a gated command can do, the drop needs a pending error. -/
theorem errorsArePrecise : Obligations.ErrorsArePrecise := by
  intro i s hi herr
  obtain ⟨body, hbody⟩ := gatedBody_of_mem hi
  refine ⟨_, exec_of_gatedBody hbody s, ?_⟩
  rw [State.after_block]
  obtain ⟨hp, -⟩ | ⟨-, b', hok, hg⟩ | ⟨-, e, herror, hg⟩ := gated_cases s.cfg body s.block
  · exact absurd herr hp
  · rw [hg]
    exact .inl ((err_of_gatedBody_ok hbody hok).trans herr)
  · rw [hg]
    exact .inr ⟨rfl, errCode_of_gatedBody_error hbody herror⟩

/-! ### Dispatch with an error pending (R157, R159) -/

/-- With an error pending SRST, CLRERR and NOP act, and every other word, Illegal ones included, only sets IGN. -/
theorem dispatchBlock_of_pending {b : Block} (hp : b.err ≠ 0) (c : Config.Params) (word : CmdWord) :
    (word = encodeCommand .srst ∧ dispatchBlock c word b = resetBlock c) ∨
    (word = encodeCommand .clrerr ∧ dispatchBlock c word b = returnFromError b) ∨
    (word = encodeCommand .nop ∧ dispatchBlock c word b = b) ∨
    dispatchBlock c word b = { b with ign := true } := by
  unfold dispatchBlock
  cases hd : decodeCommand word with
  | error e => exact .inr (.inr (.inr (gated_of_pending hp)))
  | ok k =>
    have hword : word = encodeCommand k := eq_encodeCommand_of_decodeCommand hd
    cases k with
    | srst => exact .inl ⟨hword, rfl⟩
    | clrerr => exact .inr (.inl ⟨hword, rfl⟩)
    | nop => exact .inr (.inr (.inl ⟨hword, rfl⟩))
    | _ => exact .inr (.inr (.inr (gated_of_pending hp)))

/-- Settles O47: the gate is before the six commands, whether run by themselves or by a word written to CMD. -/
theorem pendingErrorDropsCommands : Obligations.PendingErrorDropsCommands := by
  intro s hp
  constructor
  · intro c hnop hclrerr hsrst
    refine ((execWr_cmd c s).trans (dispatch_eq c s)).trans ?_
    obtain ⟨hc, -⟩ | ⟨hc, -⟩ | ⟨hc, -⟩ | hdrop := dispatchBlock_of_pending hp s.cfg c
    · exact absurd hc hsrst
    · exact absurd hc hclrerr
    · exact absurd hc hnop
    · rw [hdrop]
  · intro i hi
    obtain ⟨body, hbody⟩ := gatedBody_of_mem hi
    rw [exec_of_gatedBody hbody, gated_of_pending hp]

/-- Settles O48: of what a step can make of the block, only a reset and CLRERR take the code away. -/
theorem errorIsSticky : Obligations.ErrorIsSticky := by
  intro s t h hp
  obtain ⟨he, -⟩ | hb | ⟨c, he, hb⟩ | ⟨x, r, hb⟩ := step_block_cases h
  · exact .inr (.inl he)
  · exact .inl (by simp [hb])
  · obtain ⟨rfl, -⟩ | ⟨rfl, -⟩ | ⟨-, hkeep⟩ | hdrop := dispatchBlock_of_pending hp s.cfg c
    · exact .inr (.inr (.inr he))
    · exact .inr (.inr (.inl he))
    · exact .inl (by simp [hb, hkeep])
    · exact .inl (by simp [hb, hdrop])
  · exact .inl (by simp [hb])

/-! ### Dispatch in its order (R157) -/

/-- A write of a command's word to CMD runs the command. -/
theorem execWr_command {c : CmdWord} {k : Command} (h : c = encodeCommand k) (s : State) :
    exec (.wr .word cmdOffset c) s = exec k.toInstr s :=
  (execWr_cmd c s).trans (dispatch_of_command ((decodeCommand_eq_ok_iff c k).2 h) s)

/-- With no error pending, a word that is no command's raises ILLEGAL. -/
theorem execWr_of_no_command {c : CmdWord} {s : State} (hc : ∀ k, c ≠ encodeCommand k) (herr : s.block.err = 0) :
    exec (.wr .word cmdOffset c) s = .next (s.after { s.block with err := errCode .illegal } 0) := by
  cases hd : decodeCommand c with
  | ok k => exact absurd (eq_encodeCommand_of_decodeCommand hd) (hc k)
  | error e => rw [execWr_illegalWord hd, gated_of_error herr rfl]

/-- Settles O20, row by row of R157. -/
theorem dispatchOfCommandWord : Obligations.DispatchOfCommandWord := by
  intro c s
  refine Eq.symm ?_
  -- SRST, CLRERR and NOP, then the gate
  refine ite_eq_iff'.2 ⟨fun h => (execWr_command (k := .srst) h s).symm, fun hsrst => ?_⟩
  refine ite_eq_iff'.2 ⟨fun h => (execWr_command (k := .clrerr) h s).symm, fun hclrerr => ?_⟩
  refine ite_eq_iff'.2 ⟨fun h => (execWr_command (k := .nop) h s).symm, fun hnop => ?_⟩
  refine ite_eq_iff'.2 ⟨fun hp => ((pendingErrorDropsCommands s hp).1 c hnop hclrerr hsrst).symm, fun hgate => ?_⟩
  -- the six gated commands
  refine ite_eq_iff'.2 ⟨fun h => (execWr_command (k := .pack) h s).symm, fun hpack => ?_⟩
  refine ite_eq_iff'.2 ⟨fun h => (execWr_command (k := .unpack) h s).symm, fun hunpack => ?_⟩
  refine ite_eq_iff'.2 ⟨fun h => (execWr_command (k := .divstep) h s).symm, fun hdivstep => ?_⟩
  refine ite_eq_iff'.2 ⟨fun h => (execWr_command (k := .convert) h s).symm, fun hconvert => ?_⟩
  refine ite_eq_iff'.2 ⟨fun h => (execWr_command (k := .incn) h s).symm, fun hincn => ?_⟩
  refine ite_eq_iff'.2 ⟨fun h => (execWr_command (k := .movvn) h s).symm, fun hmovvn => ?_⟩
  -- every other word is Illegal
  have hno : ∀ k, c ≠ encodeCommand k := by
    intro k
    cases k <;> assumption
  exact (execWr_of_no_command hno (not_not.1 hgate)).symm

end Sys2Proof.Machine
end

section
/-! Reset and the host's duties (spec/70_reset_and_hazards.md R180 to R192): what one step makes of each event of the
host's program, both resets, and what the commands give from the reset values. -/

namespace Sys2Proof.Machine

/-! ### One step, event by event (R60, R180, R182, R192) -/

theorem step_of_ended {s : State} (h : nextEvent s = none) : step s = .fault .runEnded := by
  rw [step, h]

theorem step_of_assertReset {s : State} (h : nextEvent s = some .assertReset) :
    step s = .next (advance (assertResetInput s)) := by
  rw [step, h]

theorem step_of_releaseReset {s : State} (h : nextEvent s = some .releaseReset) :
    step s = .next (advance (releaseResetInput s)) := by
  rw [step, h]

theorem step_of_txn_in_reset {s : State} {w : TxnWord} (h : nextEvent s = some (.txn w)) (hr : s.resetIn = true) :
    step s = .fault .transactionDuringReset := by
  rw [step, h]
  exact if_pos hr

theorem step_of_txn {s : State} {w : TxnWord} (h : nextEvent s = some (.txn w)) (hr : s.resetIn ≠ true) :
    step s = advanceResult (exec (decodeTxn w) s) := by
  rw [step, h]
  exact if_neg hr

theorem nextEvent_of_lt {s : State} (h : s.pc < s.program.length) : ∃ e, nextEvent s = some e :=
  ⟨_, List.getElem?_eq_getElem h⟩

/-! ### The statements about the step and the hardware reset input -/

/-- Settles O14, event by event: a reset event always has a step, and a transaction has one because the conforming host
issues it with the reset input released and every instruction completes. -/
theorem conformingHostAlwaysSteps : Obligations.ConformingHostAlwaysSteps := by
  intro s hhost hpc
  obtain ⟨e, he⟩ := nextEvent_of_lt hpc
  cases e with
  | assertReset => exact ⟨_, step_of_assertReset he⟩
  | releaseReset => exact ⟨_, step_of_releaseReset he⟩
  | txn w =>
    have hreleased : s.resetIn ≠ true := fun hr => hhost hr w he
    obtain ⟨u, -, hu, -⟩ := everyInstructionCompletes (decodeTxn w) s
    exact ⟨advance u, by rw [step_of_txn he hreleased, hu, advanceResult]⟩

/-- Settles O9. -/
theorem runEndsAfterLastEvent : Obligations.RunEndsAfterLastEvent :=
  fun _ hend => step_of_ended (nextEvent_of_ended hend)

/-- Settles O10. -/
theorem noStepForTransactionDuringReset : Obligations.NoStepForTransactionDuringReset :=
  fun _ _ hevent hr => step_of_txn_in_reset hevent hr

/-- Settles O11: the two reset events. -/
theorem hardwareResetInput : Obligations.HardwareResetInput :=
  fun _ => ⟨step_of_assertReset, step_of_releaseReset⟩

/-! ### The reset values (R38, R181, R184) -/

/-- ID and CFG are constants of the instance: they do not depend on the block (R30, R31). -/
theorem readReg_constants (c : Config.Params) (b b' : Block) :
    readReg c b .id = readReg c b' .id ∧ readReg c b .cfg = readReg c b' .cfg := ⟨rfl, rfl⟩

/-- Settles O44: SRST runs `Reset()`, and the constants do not depend on the block. -/
theorem softResetZeroesEveryElement : Obligations.SoftResetZeroesEveryElement := fun s =>
  ⟨_, exec_srst s, rfl, readReg_constants s.cfg _ s.block⟩

@[simp] theorem State.resetWith_cfg (c : Config.Params) : (State.resetWith c).cfg = c := rfl

@[simp] theorem State.resetWith_block (c : Config.Params) : (State.resetWith c).block = resetBlock c :=
  (resetBlock_eq_afterReset c).symm

theorem leByte_zero (i : Nat) : leByte 0 i = 0 := BitVec.extractLsb'_zero

/-- The bytes of N = 0 are MAXW zeros. -/
theorem packBytes_zero (c : Config.Params) : packBytes c 0 = List.replicate c.maxw 0 :=
  calc
    packBytes c 0 = (List.range c.maxw).map fun _ => 0 :=
      List.map_congr_left fun i _ => by rw [leByte_zero, ite_self]
    _ = List.replicate c.maxw 0 := by rw [List.map_const', List.length_range]

/-- CONVERT checks RADIX first (R121). -/
theorem convertBody_error_of_radix {c : Config.Params} {b : Block} (h : b.radix.toNat < 2) :
    convertBody c b = .error .config :=
  if_pos h

/-- Settles O52: the reset state has no error pending, WLEN = 0, RADIX = 0 and N = 0. -/
theorem commandsFromResetValues : Obligations.CommandsFromResetValues := by
  intro c _
  have herr : (State.resetWith c).block.err = 0 := by simp
  have hwlen : (State.resetWith c).block.wlen.toNat = 0 := by simp
  have hradix : (State.resetWith c).block.radix.toNat < 2 := by simp
  refine ⟨⟨_, exec_unpack_ok herr (by simp), ?_, herr⟩,
    ⟨_, exec_divstep_error herr hradix, rfl⟩,
    ⟨_, exec_convert_error herr (convertBody_error_of_radix hradix), rfl⟩,
    ⟨_, exec_pack_ok herr, herr, packBytes_zero c⟩⟩
  rw [State.after_block, hwlen, leSum_zero]

end Sys2Proof.Machine
end
